-- ==== Sys2Proof/Word.lean ====
section
/-! DEFINITION. The word types of the block and the two readings of an operand word (00_scope.md R9, 30_encoding.md R82). -/

namespace Sys2Proof

/-- A 32-bit word: a packet word, an `int32` field or the `u32` phase (R6: `INT_W = PHASE_W = 32`). -/
abbrev Word := BitVec 32

/-- An output sample and an element of `BUF` (R6: `OUT_W = 8`). -/
abbrev Byte := BitVec 8

/-- `sext_32` (R9): the word read as a 32-bit two's-complement integer. -/
def sext32 (w : Word) : Int := w.toInt

/-- `zext_32` (R9): the word read as a non-negative integer. -/
def zext32 (w : Word) : Nat := w.toNat

/-- The word that holds the integer `x`, modulo `2^32`. -/
def wordOfInt (x : Int) : Word := BitVec.ofInt 32 x

/-- The range of `int32` (R9). -/
abbrev IsInt32 (x : Int) : Prop := -2147483648 ≤ x ∧ x ≤ 2147483647

/-- The range of `u32` (R9). -/
abbrev IsU32 (n : Nat) : Prop := n < 4294967296

end Sys2Proof
end

