-- ==== Sys2Proof/Config.lean ====
section
/-! DEFINITION. What the spec leaves to an implementation: the OPEN parameters of 00_scope.md R6 (`SAMPLE_RATE`, `SILENCE`,
`FILL_ATOMIC`) and, for the host software, the unknown entries of the Octave Table (45_host_software.md R207). Every one is an
uninterpreted constant, so a theorem about the machine holds for every value of it. -/

namespace Sys2Proof

/-- The two parameters the sample arithmetic reads. The meanings take them as an argument (R32: "arguments of the model,
not fields of its state"); the machine instantiates them with `Config.params`. -/
structure Params where
  sampleRate : Nat
  silence : Byte
  deriving DecidableEq, Repr

/-- The constraint R6 puts on `SAMPLE_RATE`: positive, and `SAMPLE_RATE * 10 < 2^31`. -/
abbrev Params.Legal (p : Params) : Prop := 0 < p.sampleRate ∧ p.sampleRate * 10 < 2147483648

/-- `SAMPLE_RATE - 1`, uninterpreted. The type has exactly the values R6 allows: `1 + 214748363 = 214748364` is the greatest
`n` with `n * 10 < 2^31`. -/
opaque Config.sampleRatePred : Fin 214748364

/-- `SAMPLE_RATE` (R6, OPEN, decision D7). -/
def Config.sampleRate : Nat := Config.sampleRatePred.val + 1

/-- `SILENCE` (R6, OPEN, decision D6). -/
opaque Config.silence : Byte

/-- `FILL_ATOMIC` (R6, R69, OPEN, decision D13): whether a host operation is kept out of a `FILL`. -/
opaque Config.fillAtomic : Bool

/-- The parameters of this block. -/
def Config.params : Params := { sampleRate := Config.sampleRate, silence := Config.silence }

/-- An entry of the Octave Table that no source gives (R207, 91 N1, 93 U14). Host software only. -/
opaque Config.octaveEntry : Fin 4 → Fin 3 → Fin 7 → Nat

/-- The Octave Table `[octave][accidental][letter]` (R207): the two entries the source gives, the rest uninterpreted. -/
def Config.octaveTable (octave : Fin 4) (accidental : Fin 3) (letter : Fin 7) : Nat :=
  if octave = 0 ∧ accidental = 1 ∧ letter = 2 then 65
  else if octave = 2 ∧ accidental = 1 ∧ letter = 2 then 262
  else Config.octaveEntry octave accidental letter

end Sys2Proof
end

