-- ==== Sys2Proof/Syntax.lean ====
section
/-! DEFINITION. The six operations of the block (00_scope.md R8, 30_encoding.md R82, R83), one constructor per row of the
opcode table. -/

namespace Sys2Proof

/-- An operation with its operands. An operand typed `int32` by R82 is the integer `sext_32` gives, one typed `u32` the
natural number `zext_32` gives; the words R82 marks `-` are no operands. -/
inductive Instr where
  /-- `PLAY voice, hz, durationMs, volume, effect, effectLevel, effectLow` (R174): load a voice and start its tone. -/
  | play (voice hz durationMs volume effect effectLevel effectLow : Int)
  /-- `STOP voice` (R181): force-silence a voice. -/
  | stop (voice : Int)
  /-- `RESUME` (R182): set `run`. -/
  | resume
  /-- `PAUSE` (R183): clear `run`. -/
  | pause
  /-- `FILL base, byteLength` (R155): fill a buffer of samples. -/
  | fill (base byteLength : Nat)
  /-- `TICK` (R150): produce one sample. -/
  | tick
  deriving DecidableEq, Repr

/-- `REST voice` (R91): the one pseudo-instruction, the source's "explicit `hz=0, volume=0` stop command". -/
def Instr.rest (voice : Int) : Instr := .play voice 0 0 0 0 0 0

end Sys2Proof
end

