-- ==== Sys2Proof/WellFormed.lean ====
section
/-! DEFINITION. Which terms of `Instr` are operations of the block: every operand fits the word R82 of 30_encoding.md gives
it. Nothing else is asked: an operand out of its useful range (a voice 4, a volume 11) is a legal packet (R85). -/

namespace Sys2Proof

/-- Every operand fits its word (R82): `int32` for PLAY and STOP, `u32` for FILL. -/
def Instr.wellFormed : Instr → Bool
  | .play voice hz durationMs volume effect effectLevel effectLow =>
      decide (IsInt32 voice) && decide (IsInt32 hz) && decide (IsInt32 durationMs) && decide (IsInt32 volume)
        && decide (IsInt32 effect) && decide (IsInt32 effectLevel) && decide (IsInt32 effectLow)
  | .stop voice => decide (IsInt32 voice)
  | .resume => true
  | .pause => true
  | .fill base byteLength => decide (IsU32 base) && decide (IsU32 byteLength)
  | .tick => true

end Sys2Proof
end

