-- ==== Sys2Proof/Decode.lean ====
section
/-! DEFINITION. The command encoding of 30_encoding.md: the packet format P8 (R80), its serialised form (R89), the decoder (R84,
R85) and, after it, the encoder written from the same tables (R82, R83). -/

namespace Sys2Proof

/-- The two ports of R81. The host agent issues on one, the audio agent on the other. -/
inductive Port where
  | host
  | audio
  deriving DecidableEq, Repr

/-- A command packet: the eight words `W0` to `W7` of format P8 (R80). -/
structure Packet where
  w0 : Word
  w1 : Word
  w2 : Word
  w3 : Word
  w4 : Word
  w5 : Word
  w6 : Word
  w7 : Word
  deriving DecidableEq, Repr

/-- Why bytes or a packet are no operation. -/
inductive Reject where
  /-- `W0[31:8]` is not 0 (R80, R85). -/
  | upperBitsNotZero
  /-- `W0[7:0]` is none of the six opcodes of R83. -/
  | unknownOpcode
  /-- The operation is not legal on the port the packet arrived on (R84, R238). -/
  | wrongPort
  /-- The bytes are not the 32 bytes of a serialised packet (R89). -/
  | notThirtyTwoBytes
  deriving DecidableEq, Repr

/-! ### The decoder -/

/-- An operation of port `legal`, taken only if the packet arrived on that port (R84). -/
def onPort (legal arrived : Port) (i : Instr) : Except Reject Instr :=
  if arrived = legal then .ok i else .error .wrongPort

/-- Decode a packet that arrived on port `p` (R84). Total; reads no state. The words R82 marks `-` are not read. -/
def decodePacket (p : Port) (k : Packet) : Except Reject Instr :=
  if k.w0.extractLsb' 8 24 ≠ 0#24 then .error .upperBitsNotZero
  else
    let op : Byte := k.w0.extractLsb' 0 8
    if op = 0x01#8 then
      onPort .host p (.play (sext32 k.w1) (sext32 k.w2) (sext32 k.w3) (sext32 k.w4) (sext32 k.w5) (sext32 k.w6) (sext32 k.w7))
    else if op = 0x02#8 then onPort .host p (.stop (sext32 k.w1))
    else if op = 0x03#8 then onPort .host p .resume
    else if op = 0x04#8 then onPort .host p .pause
    else if op = 0x10#8 then onPort .audio p (.fill (zext32 k.w1) (zext32 k.w2))
    else if op = 0x11#8 then onPort .audio p .tick
    else .error .unknownOpcode

/-- Four bytes, the first at the lowest address, as a little-endian word (R89). -/
def wordOfBytes (b0 b1 b2 b3 : Byte) : Word := b3 ++ b2 ++ b1 ++ b0

/-- The next little-endian word of a byte string and what follows it. -/
def takeWord : List Byte → Option (Word × List Byte)
  | b0 :: b1 :: b2 :: b3 :: rest => some (wordOfBytes b0 b1 b2 b3, rest)
  | _ => none

/-- The words of a serialised packet, `n` of them, and nothing after them. -/
def takeWords : Nat → List Byte → Option (List Word)
  | 0, [] => some []
  | 0, _ :: _ => none
  | n + 1, bytes =>
    match takeWord bytes with
    | none => none
    | some (w, rest) =>
      match takeWords n rest with
      | none => none
      | some ws => some (w :: ws)

/-- A packet from its eight words. -/
def packetOfWords : List Word → Option Packet
  | [a, b, c, d, e, f, g, h] => some ⟨a, b, c, d, e, f, g, h⟩
  | _ => none

/-- A packet from its serialised form (R89): 32 bytes, `W0` first, each word little-endian. -/
def packetOfBytes (bytes : List Byte) : Option Packet :=
  match takeWords 8 bytes with
  | none => none
  | some ws => packetOfWords ws

/-- Decode the serialised form of a packet that arrived on port `p`. Total on any bytes. -/
def decodeBytes (p : Port) (bytes : List Byte) : Except Reject Instr :=
  match packetOfBytes bytes with
  | none => .error .notThirtyTwoBytes
  | some k => decodePacket p k

/-! ### The encoder -/

/-- The port an operation is legal on (R83, R238). -/
def Instr.port : Instr → Port
  | .play _ _ _ _ _ _ _ => .host
  | .stop _ => .host
  | .resume => .host
  | .pause => .host
  | .fill _ _ => .audio
  | .tick => .audio

/-- `W0` of an operation (R83). -/
def Instr.opcode : Instr → Word
  | .play _ _ _ _ _ _ _ => 0x00000001#32
  | .stop _ => 0x00000002#32
  | .resume => 0x00000003#32
  | .pause => 0x00000004#32
  | .fill _ _ => 0x00000010#32
  | .tick => 0x00000011#32

/-- The operand words `W1` to `W7` (R82); an ignored word is assembled as 0 (R90). -/
def Instr.operandWords : Instr → Word × Word × Word × Word × Word × Word × Word
  | .play voice hz durationMs volume effect effectLevel effectLow =>
      (wordOfInt voice, wordOfInt hz, wordOfInt durationMs, wordOfInt volume, wordOfInt effect, wordOfInt effectLevel,
        wordOfInt effectLow)
  | .stop voice => (wordOfInt voice, 0, 0, 0, 0, 0, 0)
  | .resume => (0, 0, 0, 0, 0, 0, 0)
  | .pause => (0, 0, 0, 0, 0, 0, 0)
  | .fill base byteLength => (BitVec.ofNat 32 base, BitVec.ofNat 32 byteLength, 0, 0, 0, 0, 0)
  | .tick => (0, 0, 0, 0, 0, 0, 0)

/-- The packet of an operation (R80, R82, R83). -/
def encode (i : Instr) : Packet :=
  match i.operandWords with
  | (a, b, c, d, e, f, g) => ⟨i.opcode, a, b, c, d, e, f, g⟩

/-- A word's four bytes, the least significant first (R89). -/
def bytesOfWord (w : Word) : List Byte :=
  [w.extractLsb' 0 8, w.extractLsb' 8 8, w.extractLsb' 16 8, w.extractLsb' 24 8]

/-- The words of a packet in order. -/
def Packet.words (k : Packet) : List Word := [k.w0, k.w1, k.w2, k.w3, k.w4, k.w5, k.w6, k.w7]

/-- The serialised form of a packet (R89). -/
def Packet.bytes (k : Packet) : List Byte := k.words.flatMap bytesOfWord

/-! ### The opcode table's numbering -/

/-- Word `n` of an instruction whose bits are `w` (bit 0 the least significant bit of `W0`), the bits from `nbits` up being 0. -/
def tableWord (nbits w n : Nat) : Word := BitVec.ofNat 32 ((w % 2 ^ nbits) >>> (32 * n))

/-- The packet the opcode table's bits stand for. -/
def packetOfTable (nbits w : Nat) : Packet :=
  ⟨tableWord nbits w 0, tableWord nbits w 1, tableWord nbits w 2, tableWord nbits w 3, tableWord nbits w 4, tableWord nbits w 5,
    tableWord nbits w 6, tableWord nbits w 7⟩

/-- The port on which the opcode table lists an opcode: "host opcodes are below `0x10` and audio opcodes from `0x10`" (R83). -/
def portOfOpcode (w0 : Word) : Port := if w0 < 0x10#32 then .host else .audio

/-- The operation the decoder reads from the opcode table's bits, laid out as R89 lays a packet out and arriving on the port
the table lists. -/
def decodeTableWord (nbits w : Nat) : Option Instr :=
  match decodeBytes (portOfOpcode (packetOfTable nbits w).w0) (packetOfTable nbits w).bytes with
  | .ok i => some i
  | .error _ => none

end Sys2Proof
end

