-- ==== Sys2Proof/Machine/State.lean ====
section
/-! DEFINITION. The state of the block (10_state.md), what stops it (60_exceptions.md R232), and reset (R36). -/

namespace Sys2Proof.Machine

/-- The five effect kinds (R13, R27): None, Fixed, CyclicUp, CyclicDown, Bounce. -/
inductive EffectKind where
  | none
  | fixed
  | up
  | down
  | bounce
  deriving DecidableEq, Repr

/-- The Bounce direction increment (R30). -/
inductive Direction where
  /-- +1 -/
  | ascending
  /-- -1 -/
  | descending
  deriving DecidableEq, Repr

/-- One voice with its embedded envelope: the ten fields of R21. -/
structure Voice where
  /-- Target frequency in Hz, `int32`; 0 is silent (R22). -/
  hz : Word
  /-- Wavelength in samples, `int32` (R23). -/
  wl : Word
  /-- Volume in the internal unit, `int32` (R24). -/
  vol : Word
  /-- Duration in milliseconds, `int32`; nothing in the block reads it (R25). -/
  dur : Word
  /-- Sample-phase index, `u32`, wraps (R26). -/
  phase : Word
  /-- Effect kind (R27). -/
  fx : EffectKind
  /-- Configured level, `int32` (R28). -/
  level : Word
  /-- Low bound, `int32` (R28). -/
  low : Word
  /-- Current level, `int32` (R29). -/
  cur : Word
  /-- Direction increment (R30). -/
  dir : Direction
  deriving DecidableEq, Repr

/-- Bytes of `BUF`, the output buffer space (20_memory.md R60, R61), by address, addresses strictly rising. An address that is not
listed has no value. -/
abbrev Memory := List Host.Cell

/-- The canonical form: addresses strictly rising. -/
abbrev Memory.wf (m : Memory) : Prop := m.Pairwise (fun c d => c.1 < d.1)

/-- A stretch of `BUF` that the audio agent owns and may hand to a `FILL` (R62, 93 U7). -/
structure Region where
  base : Nat
  size : Nat
  deriving DecidableEq, Repr

/-- A `FILL` in progress under `FILL_ATOMIC = 0` (R33, R69): its operands, the number of its sample steps already taken, and the bytes
it has stored so far, which no one but the `FILL` itself sees before it ends (R61, R62). -/
structure FillJob where
  base : Nat
  length : Nat
  index : Nat
  bytes : Memory
  deriving DecidableEq, Repr

/-- One line of a listing (R92): a packet and the port it is issued on. A host packet with `cutIn = some k` takes its place in
the total order inside the `FILL` issued before it, once `k` of its sample steps are taken (R69); `none` is after it. -/
structure Issue where
  port : Port
  packet : Packet
  cutIn : Option Nat
  deriving DecidableEq, Repr

/-- The state of the machine: the block's own state (`voices`, `run`, the `FILL` in progress), its outputs (`out`, `buf`) and its
inputs (`owned`, `pending`). -/
structure State where
  /-- The voice file (R20, R21). -/
  voices : Vector Voice 4
  /-- The run flag (R31). -/
  run : Bool
  /-- The sample most recently driven on the audio port by a `TICK` (R12, R88); `none` before the first. -/
  out : Option Byte
  /-- The output buffer space (R60): the final contents of the `FILL`s that have ended (R62). -/
  buf : Memory
  /-- What of `BUF` the audio agent owns (R62, 93 U7): an input, no operation writes it. -/
  owned : List Region
  /-- The `FILL` in progress, if one is (R69). -/
  fill : Option FillJob
  /-- The packets the two agents issue, in the total order in which they take effect (R68, R92): an input. -/
  pending : List Issue
  deriving DecidableEq, Repr

/-- What stops the machine with a fault. A fault is terminal (R233, R237, 93 U5). -/
inductive Fault where
  /-- Raised by TICK, FILL and a sample step of a FILL when the active voice `v` has `wl <= 0` (R114, R233). Safe: the spec
  gives the case no value. -/
  | undefinedWavelength (v : Fin 4)
  /-- Raised by a `MemRead` of an address that this `FILL` has not stored to (R61, 93 U10). Safe: the spec gives the byte no value.
  No `FILL` raises it, since it writes every byte of its range first (R155). -/
  | unwrittenByte (address : Nat)
  deriving DecidableEq, Repr

/-- What the machine gives no meaning. -/
inductive Refusal where
  /-- Raised by `exec` for an instruction whose meaning is not written. Safe. No arm of `exec` raises it. -/
  | notModelled (mnemonic : String)
  /-- Raised by `step` on a packet that decodes to RESERVED (R85, 93 U6). Safe: no meaning is given. -/
  | reservedPacket (why : Reject)
  /-- Raised by TICK and FILL while `run = 0` (R154, 93 U8). Safe: the spec says it does not occur. -/
  | audioWhilePaused
  /-- Raised by PLAY that passes validation with `hz < 0` (R180, 93 U2). Safe: what it stores is unspecified. -/
  | playNegativeFrequency
  /-- Raised by PLAY that passes validation with `abs(effectLevel)` or `abs(effectLow)` of `2^28` or more (R180, 93 U3). Safe:
  what it stores is unspecified. -/
  | playEffectOutOfDomain
  /-- Raised by FILL over a range the audio agent does not own (R62, 93 U7). Safe: no meaning is given. -/
  | bufferNotOwned
  deriving DecidableEq, Repr

/-- A voice after reset (R36). -/
def Voice.reset : Voice :=
  { hz := 0, wl := 0, vol := 0, dur := 0, phase := 0, fx := .none, level := 0, low := 0, cur := 0, dir := .ascending }

/-- The state after reset (R36, R250): all voices silent, `run = 0`. Outputs and inputs are empty, and the audio agent owns every
address a packet can name (R61: up to `2^33 - 3`). -/
def State.reset : State :=
  { voices := Vector.replicate 4 Voice.reset
    run := false
    out := none
    buf := []
    owned := [{ base := 0, size := 8589934592 }]
    fill := none
    pending := [] }

end Sys2Proof.Machine
end

