-- ==== Sys2Proof/Machine/Ops.lean ====
section
/-! DEFINITION. The named operations over the state: the primitives of 00_scope.md R12 (`voice[v].f`, `run`, `MemRead`, `MemWrite`,
`out`, `raise`) and the updates of the fields of State. -/

namespace Sys2Proof.Machine

/-- What an operation answers. -/
abbrev Result := Host.Outcome State Fault Refusal

/-- The value of Bounce's direction increment (R30). -/
def Direction.toInt : Direction → Int
  | .ascending => 1
  | .descending => -1

/-- An active voice (R14, R151): `hz != 0`. -/
def Voice.active (V : Voice) : Bool := V.hz != 0

/-- `voice[v]` (R12). -/
def State.voice (s : State) (v : Fin 4) : Voice := s.voices[v]

/-- `voice[v] <- V` (R12). -/
def State.setVoice (s : State) (v : Fin 4) (V : Voice) : State := { s with voices := s.voices.set v V }

/-- `out <- x` (R12). -/
def State.setOut (s : State) (x : Byte) : State := { s with out := some x }

/-- The output buffer space becomes `m`. -/
def State.setBuf (s : State) (m : Memory) : State := { s with buf := m }

/-- The `FILL` in progress becomes `job`. -/
def State.setFill (s : State) (job : Option FillJob) : State := { s with fill := job }

/-- The packets still to take effect become `l`. -/
def State.setPending (s : State) (l : List Issue) : State := { s with pending := l }

/-- `MemRead(BUF, a, 1)` (R61): the value last stored at `a`, if one was. -/
def Memory.read : Memory → Nat → Option Byte
  | [], _ => none
  | (b, y) :: m, a => if a = b then some y else Memory.read m a

/-- `MemWrite(BUF, a, 1, x)` (R61). -/
def Memory.write : Memory → Nat → Byte → Memory
  | [], a, x => [(a, x)]
  | (b, y) :: m, a, x =>
    if a < b then (a, x) :: (b, y) :: m
    else if a = b then (a, x) :: m
    else (b, y) :: Memory.write m a x

/-- The bytes of the `n` addresses from `base` lose their values: a `FILL` of them has begun, and what they hold until it ends is not
visible (R62). -/
def Memory.withdraw (m : Memory) (base n : Nat) : Memory := m.filter (fun c => !(decide (base ≤ c.1) && decide (c.1 < base + n)))

/-- Every byte of a memory stored into another. -/
def Memory.storeAll (m : Memory) : Memory → Memory
  | [] => m
  | (a, x) :: w => (Memory.storeAll m w).write a x

/-- The end of a `FILL` of the `n` addresses from `base`: its bytes `w` become visible (R62). -/
def Memory.deliver (m : Memory) (base n : Nat) (w : Memory) : Memory := (m.withdraw base n).storeAll w

/-- Whether the audio agent owns the `n` bytes from `base` (R62, 93 U7). A range of no bytes touches nothing (R156). -/
def State.ownsRange (s : State) (base n : Nat) : Bool :=
  n == 0 || s.owned.any (fun r => decide (r.base ≤ base) && decide (base + n ≤ r.base + r.size))

/-- The one place where the spec's `raise F(info)` becomes an outcome (R12, R236): the block takes no trap, saves nothing and goes
nowhere, and the model faults. -/
def raising (r : Except Fault State) : Result :=
  match r with
  | .ok s => .next s
  | .error f => .fault f

end Sys2Proof.Machine
end

