-- ==== Sys2Proof/Machine/Envelope.lean ====
section
/-! DEFINITION. The Envelope Engine, 41_envelope.md: the function `ENV_STEP`. -/

namespace Sys2Proof.Machine

/-- The UP transition (R132): decrement; at 1 or below restart at the configured level. -/
def upTransition (V : Voice) : Voice :=
  let t := sext32 V.cur - 1
  if t ≤ 1 then { V with cur := V.level } else { V with cur := wordOfInt t }

/-- The DOWN transition (R133): increment; at the configured level or above restart at 1. -/
def downTransition (V : Voice) : Voice :=
  let t := sext32 V.cur + 1
  if sext32 V.level ≤ t then { V with cur := 1 } else { V with cur := wordOfInt t }

/-- The BOUNCE transition (R134): both tests are on the same `t`, and the first that holds decides. -/
def bounceTransition (V : Voice) : Voice :=
  let t := sext32 V.cur + V.dir.toInt
  if t < sext32 V.low then { V with cur := wordOfInt (sext32 V.low + 2), dir := .ascending }
  else if sext32 V.level < t then { V with cur := wordOfInt (sext32 V.level - 2), dir := .descending }
  else { V with cur := wordOfInt t }

/-- The transition at a cycle boundary, by effect kind (R131 to R135). -/
def envTransition (V : Voice) : Voice :=
  match V.fx with
  | .none => V
  | .fixed => V
  | .up => upTransition V
  | .down => downTransition V
  | .bounce => bounceTransition V

/-- Whether the voice stands at a cycle boundary (R130): `phase mod wl = 0`, for `wl > 0`. -/
def atBoundary (V : Voice) : Bool := decide (zext32 V.phase % (sext32 V.wl).toNat = 0)

/-- `ENV_STEP` on a voice (R135): `none` marks `raise UndefinedWavelength`. -/
def envStep (V : Voice) : Option Voice :=
  if sext32 V.wl ≤ 0 then none
  else if atBoundary V then some (envTransition V)
  else some V

end Sys2Proof.Machine
end

