-- ==== Sys2Proof/Machine/Flags.lean ====
section
/-! DEFINITION. The block's one flag, `run` (10_state.md R31, 60_exceptions.md R242). The block has no other flag or condition
code (R33), so no operation has a flag computation. -/

namespace Sys2Proof.Machine

/-- `run <- b` (R12, R31). -/
def State.setRun (s : State) (b : Bool) : State := { s with run := b }

/-- An operation of the audio agent, which has a meaning only while `run = 1` (R31, R154). -/
def whileRunning (s : State) (r : Result) : Result := if s.run then r else .refused .audioWhilePaused

end Sys2Proof.Machine
end

