-- ==== Sys2Proof/Machine/Generator.lean ====
section
/-! DEFINITION. The Waveform Generator, 40_generator.md: the function `SAMPLE`. -/

namespace Sys2Proof.Machine

/-- The square wave (R111): `+vol` in the first `wl div 2` positions of a cycle, `-vol` in the rest. -/
def square (phase wl : Nat) (vol : Int) : Int := if phase % wl < wl / 2 then vol else -vol

/-- The gate (R112): shut in every second stretch of `lvl` samples, counted on the whole phase. The test `lvl > 0` is first. -/
def gated (phase : Nat) (lvl : Int) : Bool := decide (0 < lvl) && decide (phase / lvl.toNat % 2 = 1)

/-- `SAMPLE(phase, wl, vol, lvl)` (R113): `none` marks `raise UndefinedWavelength` (R114). -/
def sample (phase wl vol lvl : Word) : Option Int :=
  if sext32 wl ≤ 0 then none
  else if gated (zext32 phase) (sext32 lvl) then some 0
  else some (square (zext32 phase) (sext32 wl).toNat (sext32 vol))

end Sys2Proof.Machine
end

