-- ==== Sys2Proof/Machine/Mixer.lean ====
section
/-! DEFINITION. The Voice Mixer, 42_mixer.md: the meanings of `TICK` and `FILL`, and the sample steps a `FILL` is made of when
host operations fall inside it (20_memory.md R69). -/

namespace Sys2Proof.Machine

/-- One sample of an active voice (R150): the sample from the phase before the +1 and the level before the envelope step, then
the phase +1 modulo `2^32`, then `ENV_STEP`. `none` marks `raise UndefinedWavelength`. -/
def playSample (V : Voice) : Option (Int × Voice) :=
  match sample V.phase V.wl V.vol V.cur with
  | none => none
  | some x =>
    match envStep { V with phase := V.phase + 1 } with
    | none => none
    | some V' => some (x, V')

/-- `(acc + s) mod 2^8` (R152). -/
def mixByte (acc : Byte) (x : Int) : Byte := acc + BitVec.ofInt 8 x

/-- The order in which a sample handles the voices (R150, R153). -/
def voiceOrder : List (Fin 4) := [0, 1, 2, 3]

/-- The voices `vs` of one `TICK`, in order, from the accumulator `acc` (R150). A silent voice is skipped whole (R151). -/
def tickVoices : List (Fin 4) → Byte → State → Except Fault (Byte × State)
  | [], acc, s => .ok (acc, s)
  | v :: vs, acc, s =>
    if (s.voice v).active then
      match playSample (s.voice v) with
      | none => .error (.undefinedWavelength v)
      | some (x, V) => tickVoices vs (mixByte acc x) (s.setVoice v V)
    else tickVoices vs acc s

/-- The loop body of `TICK` (R150): mix from `SILENCE`, then drive `out`. -/
def tickSample (p : Params) (s : State) : Except Fault State :=
  match tickVoices voiceOrder p.silence s with
  | .error f => .error f
  | .ok (acc, t) => .ok (t.setOut acc)

/-- The voices `vs` of one sample of a `FILL`, added into the byte at `a` (R155). `m` holds the bytes this `FILL` has stored, which are
all that its `MemRead` sees (R61); `BUF` itself does not change before the `FILL` ends (R62). -/
def fillVoices (a : Nat) : List (Fin 4) → Memory → State → Except Fault (Memory × State)
  | [], m, s => .ok (m, s)
  | v :: vs, m, s =>
    if (s.voice v).active then
      match playSample (s.voice v) with
      | none => .error (.undefinedWavelength v)
      | some (x, V) =>
        match m.read a with
        | none => .error (.unwrittenByte a)
        | some b => fillVoices a vs (m.write a (mixByte b x)) (s.setVoice v V)
    else fillVoices a vs m s

/-- The sample step of a `FILL` for the byte at `a` (R155). -/
def fillSample (a : Nat) (m : Memory) (s : State) : Except Fault (Memory × State) := fillVoices a voiceOrder m s

/-- The silence write of a `FILL` (R155): `n` bytes from `base`, in increasing order. -/
def fillSilence (silence : Byte) (base : Nat) : Nat → Memory
  | 0 => []
  | n + 1 => (fillSilence silence base n).write (base + n) silence

/-- The first `n` sample steps of a `FILL` at `base`, in increasing order (R155). -/
def fillSamples (base : Nat) : Nat → Memory → State → Except Fault (Memory × State)
  | 0, m, s => .ok (m, s)
  | n + 1, m, s =>
    match fillSamples base n m s with
    | .error f => .error f
    | .ok (m', t) => fillSample (base + n) m' t

/-- The end of a `FILL` of the `n` bytes from `base` with the final contents `m` (R62). -/
def State.deliver (s : State) (base n : Nat) (m : Memory) : State := s.setBuf (s.buf.deliver base n m)

/-- The whole of `FILL base, n` (R155, R156). -/
def fillBuffer (p : Params) (base n : Nat) (s : State) : Except Fault State :=
  match fillSamples base n (fillSilence p.silence base n) s with
  | .error f => .error f
  | .ok (m, t) => .ok (t.deliver base n m)

/-- What `FILL` asks before it acts: `run = 1` (R154) and a buffer the audio agent owns (R62, 93 U7). -/
def whileFillable (base n : Nat) (s : State) (r : Result) : Result :=
  whileRunning s (if s.ownsRange base n then r else .refused .bufferNotOwned)

/-- `TICK` (R150) under the parameters `p`. -/
def tick (p : Params) (s : State) : Result := whileRunning s (raising (tickSample p s))

/-- `FILL` (R155) under the parameters `p`, with no host operation inside it. -/
def fill (p : Params) (base n : Nat) (s : State) : Result := whileFillable base n s (raising (fillBuffer p base n s))

/-- The meaning of `TICK`. -/
def execTick (s : State) : Result := tick Config.params s

/-- The meaning of `FILL`. -/
def execFill (base byteLength : Nat) (s : State) : Result := fill Config.params base byteLength s

/-- The start of a `FILL` inside which a host operation falls (R69): the silence write, and the sample steps still to take. Until it
ends the bytes of its range have no visible value (R62). -/
def openFill (p : Params) (base n : Nat) (s : State) : Result :=
  whileFillable base n s
    (if n = 0 then .next s
     else .next ((s.setBuf (s.buf.withdraw base n)).setFill
       (some { base := base, length := n, index := 0, bytes := fillSilence p.silence base n })))

/-- The state after one more sample step has left the bytes `m`: the `FILL` goes on, or it ends and its bytes become visible (R62). -/
def FillJob.advance (job : FillJob) (m : Memory) (s : State) : State :=
  if job.index + 1 < job.length then s.setFill (some { job with index := job.index + 1, bytes := m })
  else (s.deliver job.base job.length m).setFill none

/-- The next sample step of the `FILL` in progress (R69). -/
def stepFill (job : FillJob) (s : State) : Result :=
  match fillSample (job.base + job.index) job.bytes s with
  | .error f => .fault f
  | .ok (m, t) => .next (job.advance m t)

end Sys2Proof.Machine
end

