-- ==== Sys2Proof/Machine/Agents.lean ====
section
/-! DEFINITION. Which agent acts next, 20_memory.md section 3: all operations of both agents form one total order (R68), given by
`pending`, and under `FILL_ATOMIC = 0` a host operation may fall between two sample steps of a `FILL` (R69), given by an issue's
`cutIn`. -/

namespace Sys2Proof.Machine

/-- What one step of the machine does. -/
inductive Turn where
  /-- No operation is issued and no `FILL` can go on: the block does nothing. -/
  | idle
  /-- The next sample step of the `FILL` in progress. -/
  | sample (job : FillJob)
  /-- The operation of the next issue; `cut` says that the issue after it is a host operation that cuts into it. -/
  | operation (issue : Issue) (rest : List Issue) (cut : Bool)
  deriving DecidableEq, Repr

/-- Whether an issue is to take its place inside the `FILL` issued before it (R69): only host operations may. -/
def Issue.cuts (i : Issue) : Bool := decide (i.port = .host) && i.cutIn.isSome

/-- Whether the next issue to come cuts into the operation before it. -/
def nextCuts : List Issue → Bool
  | [] => false
  | i :: _ => i.cuts

/-- Whether a host operation's place inside the `FILL` in progress is reached (R69). -/
def Issue.reached (i : Issue) (job : FillJob) : Bool :=
  decide (i.port = .host) &&
    match i.cutIn with
    | none => false
    | some k => decide (k ≤ job.index)

/-- Whether the next issue is taken before the next sample step of the `FILL` in progress: a host operation whose place is
reached, or any issue while the block is paused, when the sample steps stand still (R183, R242). -/
def Issue.entersFill (i : Issue) (job : FillJob) (run : Bool) : Bool := !run || i.reached job

/-- Which turn is next. -/
def State.turn (s : State) : Turn :=
  match s.fill, s.pending with
  | none, [] => .idle
  | none, i :: rest => .operation i rest (nextCuts rest)
  | some job, [] => if s.run then .sample job else .idle
  | some job, i :: rest =>
    if i.entersFill job s.run then .operation i rest false
    else .sample job

/-- The range of a `FILL` that is to run as sample steps: one that a host operation cuts into, where `FILL_ATOMIC = 0`. Where
`FILL_ATOMIC = 1` host operations fall before or after a `FILL` (R69), and it runs whole. -/
def splitFill (cut : Bool) (i : Instr) : Option (Nat × Nat) :=
  match i with
  | .fill base n => if cut && !Config.fillAtomic then some (base, n) else none
  | .play _ _ _ _ _ _ _ => none
  | .stop _ => none
  | .resume => none
  | .pause => none
  | .tick => none

/-- The issue that carries the opcode table's bits, on the port the table lists (R83). -/
def issueOfTable (nbits w : Nat) : Issue :=
  { port := portOfOpcode (packetOfTable nbits w).w0, packet := packetOfTable nbits w, cutIn := none }

/-- The state in which `i` is the only operation issued. For an operation of the audio port `run` is set, since the audio agent
issues only while `run = 1` (R31). -/
def State.issueOnly (s : State) (i : Issue) : State :=
  { s with pending := [i], fill := none, run := s.run || decide (i.port = .audio) }

/-- The platform asserts reset (R250): the block's own state takes its reset values (R36) and the operation in progress is discarded.
DESIGN CHOICE (notes/assumptions/11.md): reset falls between two steps, so inside a `FILL` only where that runs step by step, never inside
one that no host packet cuts into or any with `FILL_ATOMIC = 1`; R250 leaves open where inside an operation it may fall. The buffer
space, what the audio agent owns of it and the packets still to come are not the block's. An event from outside: no operation is it, and
`step` does not call it. -/
def State.assertReset (s : State) : State :=
  { s with voices := State.reset.voices, run := State.reset.run, out := State.reset.out, fill := State.reset.fill }

end Sys2Proof.Machine
end

