-- ==== Sys2Proof/Machine/Operands.lean ====
section
/-! DEFINITION. The operand forms of 43_voice_control.md and 30_encoding.md: voice numbers, effect codes, validation, domain,
scaling, and the wavelength function `WL`. -/

namespace Sys2Proof.Machine

/-- A voice operand as an index (R20, R87): `none` outside 0..3. -/
def voiceIndex (voice : Int) : Option (Fin 4) :=
  if voice = 0 then some 0
  else if voice = 1 then some 1
  else if voice = 2 then some 2
  else if voice = 3 then some 3
  else none

/-- The effect kind with a code (R86): `none` outside the 5 defined kinds. -/
def effectOfCode (effect : Int) : Option EffectKind :=
  if effect = 0 then some .none
  else if effect = 1 then some .fixed
  else if effect = 2 then some .up
  else if effect = 3 then some .down
  else if effect = 4 then some .bounce
  else none

/-- The code of an effect kind (R86). -/
def EffectKind.code : EffectKind → Int
  | .none => 0
  | .fixed => 1
  | .up => 2
  | .down => 3
  | .bounce => 4

/-- Validation (R170, R171): the voice and the effect kind a PLAY addresses, or `none` where it is rejected. All the tests come
before any write; `hz`, `effectLevel` and `effectLow` are not validated. -/
def playTarget (voice durationMs volume effect : Int) : Option (Fin 4 × EffectKind) :=
  if volume < 0 ∨ 10 < volume ∨ durationMs < 0 then none
  else
    match voiceIndex voice, effectOfCode effect with
    | some v, some k => some (v, k)
    | _, _ => none

/-- The part of the domain of R180 that concerns `effectLevel` and `effectLow`. -/
def effectInDomain (effectLevel effectLow : Int) : Bool :=
  decide (effectLevel.natAbs < 268435456) && decide (effectLow.natAbs < 268435456)

/-- `volume * 6` (R176). -/
def scaleVolume (volume : Int) : Word := wordOfInt (volume * 6)

/-- `abs(x) * 8` (R177). -/
def scaleEffect (x : Int) : Word := wordOfInt ((x.natAbs : Int) * 8)

/-- `WL(hz)` (R172), for `hz >= 0`; the division is R10's. -/
def wavelength (sampleRate hz : Nat) : Nat :=
  if hz = 0 then 0 else (sampleRate * 10 / hz + 5) / 10

/-- The start value of `cur` (R175): 0 for NONE, the configured level for every other kind. -/
def startLevel (kind : EffectKind) (effectLevel : Int) : Word :=
  match kind with
  | .none => 0
  | .fixed => scaleEffect effectLevel
  | .up => scaleEffect effectLevel
  | .down => scaleEffect effectLevel
  | .bounce => scaleEffect effectLevel

end Sys2Proof.Machine
end

