-- ==== Sys2Proof/Machine/VoiceControl.lean ====
section
/-! DEFINITION. Voice control, 43_voice_control.md: the meanings of `PLAY`, `STOP`, `RESUME` and `PAUSE`. -/

namespace Sys2Proof.Machine

/-- The voice an accepted `PLAY` loads (R174): all ten fields. -/
def loadedVoice (p : Params) (hz durationMs volume : Int) (kind : EffectKind) (effectLevel effectLow : Int) : Voice :=
  { hz := wordOfInt hz
    wl := BitVec.ofNat 32 (wavelength p.sampleRate hz.toNat)
    vol := scaleVolume volume
    dur := wordOfInt durationMs
    phase := 0
    fx := kind
    level := scaleEffect effectLevel
    low := scaleEffect effectLow
    cur := startLevel kind effectLevel
    dir := .descending }

/-- `PLAY` (R174) under the parameters `p`. A rejected request changes nothing (R170); an accepted one outside the domain of R180
has no meaning; otherwise the ten fields of one voice and `run` are written together (R70). -/
def play (p : Params) (voice hz durationMs volume effect effectLevel effectLow : Int) (s : State) : Result :=
  match playTarget voice durationMs volume effect with
  | none => .next s
  | some (v, kind) =>
    if hz < 0 then .refused .playNegativeFrequency
    else if effectInDomain effectLevel effectLow then
      .next ((s.setVoice v (loadedVoice p hz durationMs volume kind effectLevel effectLow)).setRun true)
    else .refused .playEffectOutOfDomain

/-- The meaning of `PLAY`. -/
def execPlay (voice hz durationMs volume effect effectLevel effectLow : Int) (s : State) : Result :=
  play Config.params voice hz durationMs volume effect effectLevel effectLow s

/-- The meaning of `STOP` (R181): `hz <- 0` in one voice, nothing else; a voice outside 0..3 is a no-op. -/
def execStop (voice : Int) (s : State) : Result :=
  match voiceIndex voice with
  | none => .next s
  | some v => .next (s.setVoice v { s.voice v with hz := 0 })

/-- The meaning of `RESUME` (R182). -/
def execResume (s : State) : Result := .next (s.setRun true)

/-- The meaning of `PAUSE` (R183): `run` only, the voice file stands still. -/
def execPause (s : State) : Result := .next (s.setRun false)

end Sys2Proof.Machine
end

