-- ==== Sys2Proof/Machine/Dispatch.lean ====
section
/-! DEFINITION. One arm per operation of the opcode table (30_encoding.md R83). -/

namespace Sys2Proof.Machine

def exec (i : Instr) (s : State) : Host.Outcome State Fault Refusal :=
  match i with
  | .play voice hz durationMs volume effect effectLevel effectLow => Sys2Proof.Machine.execPlay voice hz durationMs volume effect effectLevel effectLow s
  | .stop voice => Sys2Proof.Machine.execStop voice s
  | .resume => Sys2Proof.Machine.execResume s
  | .pause => Sys2Proof.Machine.execPause s
  | .fill base byteLength => Sys2Proof.Machine.execFill base byteLength s
  | .tick => Sys2Proof.Machine.execTick s

end Sys2Proof.Machine
end

