-- ==== Sys2Proof/Machine/Step.lean ====
section
/-! DEFINITION. One step of the machine: one operation of one agent, or one sample step of a `FILL` (20_memory.md R68, R69). -/

namespace Sys2Proof.Machine

/-- One step: the next turn. The packet is decoded when its operation takes its place in the order (R73). -/
def step (s : State) : Host.Outcome State Fault Refusal :=
  match s.turn with
  | .idle => .next s
  | .sample job => stepFill job s
  | .operation issue rest cut =>
    match decodePacket issue.port issue.packet with
    | .error why => .refused (.reservedPacket why)
    | .ok i =>
      match splitFill cut i with
      | some (base, n) => openFill Config.params base n (s.setPending rest)
      | none => exec i (s.setPending rest)

/-- `s` with the opcode table's instruction issued, so that the next step runs it. -/
def State.withFetchWord (s : State) (nbits w : Nat) : State := s.issueOnly (issueOfTable nbits w)

end Sys2Proof.Machine
end

