-- ==== Sys2Proof/Machine/HostSoftware.lean ====
section
/-! DEFINITION. The host software reference, 45_host_software.md: the sequences of operations and waits that `playTone` and
`playNotes` issue. It constrains the host agent, never the block (R4): nothing here is called by `exec` or `step`. -/

namespace Sys2Proof.Machine

/-- What the host's thread does: issue an operation, or wait one 50 ms quantum of wall-clock time (R200, R203). -/
inductive HostAction where
  | issue (i : Instr)
  | waitQuantum
  deriving DecidableEq, Repr

/-- The number of 50 ms quanta of a wait (R201): `ceil(durationMs / 50)`. -/
def quanta (durationMs : Int) : Nat := (durationMs.toNat + 49) / 50

/-- `playTone` (R200). The host makes the validation test itself, because the block reports nothing (R37). -/
def playTone (voice hz durationMs volume effect effectLevel effectLow : Int) : List HostAction :=
  match playTarget voice durationMs volume effect with
  | none => []
  | some _ =>
    .issue (.play voice hz durationMs volume effect effectLevel effectLow) ::
      if 0 < durationMs then List.replicate (quanta durationMs) .waitQuantum ++ [.issue (.stop voice)] else []

/-- An Octave Table (R207): `[octave 0-3][accidental][letter 0-6]`. -/
abbrev OctaveTable := Fin 4 → Fin 3 → Fin 7 → Nat

/-- `^`: raise the octave, clamped to 3 (R208). -/
def octaveUp (o : Fin 4) : Fin 4 := if o = 0 then 1 else if o = 1 then 2 else 3

/-- `v`: lower the octave, clamped to 0 (R208). -/
def octaveDown (o : Fin 4) : Fin 4 := if o = 3 then 2 else if o = 2 then 1 else 0

/-- A digit `1` to `4` sets the octave to its value less 1 (R208). -/
def octaveDigit (c : Char) : Option (Fin 4) :=
  if c = '1' then some 0 else if c = '2' then some 1 else if c = '3' then some 2 else if c = '4' then some 3 else none

/-- A letter `A` to `G` selects a scale degree (R209). -/
def letterIndex (c : Char) : Option (Fin 7) :=
  if c = 'A' then some 0 else if c = 'B' then some 1 else if c = 'C' then some 2 else if c = 'D' then some 3
  else if c = 'E' then some 4 else if c = 'F' then some 5 else if c = 'G' then some 6 else none

/-- An optional accidental (R210): `b` is column 0, `#` column 2, natural column 1 (R207). -/
def takeAccidental : List Char → Fin 3 × List Char
  | [] => (1, [])
  | c :: cs => if c = 'b' then (0, cs) else if c = '#' then (2, cs) else (1, c :: cs)

/-- The hold characters `-` (R211): how many, and the rest. -/
def takeHolds : List Char → Nat × List Char
  | [] => (0, [])
  | c :: cs =>
    if c = '-' then
      match takeHolds cs with
      | (k, rest) => (k + 1, rest)
    else (0, c :: cs)

/-- The `playTone` call of one resolved token (R213). -/
def emitNote (incrementMs volume : Int) (hz holds : Nat) : List HostAction :=
  playTone 0 hz (incrementMs * (1 + (holds : Int))) volume 0 0 0

/-- The scan of `playNotes` (R206, R215) from octave `o`; the first argument bounds the tokens still to scan. A letter or a space
is a note or a rest (R209), and any other character is skipped (R214). -/
def scanNotes (table : OctaveTable) (incrementMs volume : Int) : Nat → Fin 4 → List Char → List HostAction
  | 0, _, _ => []
  | _ + 1, _, [] => []
  | fuel + 1, o, c :: cs =>
    if c = '^' then scanNotes table incrementMs volume fuel (octaveUp o) cs
    else if c = 'v' then scanNotes table incrementMs volume fuel (octaveDown o) cs
    else
      match octaveDigit c with
      | some o' => scanNotes table incrementMs volume fuel o' cs
      | none =>
        match takeAccidental cs with
        | (acc, afterAcc) =>
          match takeHolds afterAcc with
          | (holds, rest) =>
            match letterIndex c with
            | some letter =>
              emitNote incrementMs volume (table o acc letter) holds ++ scanNotes table incrementMs volume fuel o rest
            | none =>
              if c = ' ' then emitNote incrementMs volume 0 holds ++ scanNotes table incrementMs volume fuel o rest
              else scanNotes table incrementMs volume fuel o cs

/-- `playNotes(incrementMs, volume, s)` (R205, R215): a no-op below 50 ms; else one scan from octave 0 (R206). A token takes at
least one character, so the length of the string bounds their number. -/
def playNotesWith (table : OctaveTable) (incrementMs volume : Int) (notes : List Char) : List HostAction :=
  if incrementMs < 50 then [] else scanNotes table incrementMs volume notes.length 0 notes

/-- `playNotes` over the host's own table. -/
def playNotes (incrementMs volume : Int) (notes : List Char) : List HostAction :=
  playNotesWith Config.octaveTable incrementMs volume notes

/-- The packets of a list of host actions, in the order in which the host agent issues them (R92). Where each falls against the audio
agent's operations is open (R68, R69, R202): `places` says for each packet in turn after how many sample steps of a `FILL` under way it
takes its place (R69), and the audio agent's packets go between them as the case to be looked at needs. DESIGN CHOICE
(notes/assumptions/14.md): a packet past the end of `places` has no place inside a `FILL`. -/
def hostIssues : List (Option Nat) → List HostAction → List Issue
  | _, [] => []
  | places, .waitQuantum :: rest => hostIssues places rest
  | places, .issue i :: rest => { port := i.port, packet := encode i, cutIn := places.headD none } :: hostIssues places.tail rest

end Sys2Proof.Machine
end

