-- ==== Sys2Proof/Safety.lean ====
section
/-! DEFINITION. What counts as a safe run: the ranges 10_state.md R21, R29 and R35 give the voice fields, the canonical form of
`BUF`, and the frequency ceiling of 70_reset_and_hazards.md R255 under which no step faults. -/

namespace Sys2Proof.Machine

/-! ### What one sample does to a voice, in the words of R150 -/

/-- An active voice on which `SAMPLE` is undefined (R114). -/
def Voice.lacksWavelength (V : Voice) : Bool := V.active && decide (sext32 V.wl ≤ 0)

/-- What a voice adds to one output sample (R150, R151): its `SAMPLE`, or 0 if it is silent. -/
def Voice.contribution (V : Voice) : Int :=
  if V.active then
    if gated (zext32 V.phase) (sext32 V.cur) then 0 else square (zext32 V.phase) (sext32 V.wl).toNat (sext32 V.vol)
  else 0

/-- A voice after one sample (R150, R151): if it is active, the phase has advanced by one modulo `2^32` and, where that ends a
cycle, the envelope has made its transition. -/
def Voice.afterSample (V : Voice) : Voice :=
  if V.active then
    let W : Voice := { V with phase := V.phase + 1 }
    if atBoundary W then envTransition W else W
  else V

/-- The sum of the contributions of some voices, as a mathematical integer (R152). -/
def State.mixSum (s : State) (vs : List (Fin 4)) : Int := (vs.map (fun v => (s.voice v).contribution)).sum

/-- The state after one sample of the voices `vs`. -/
def State.advanceVoices (s : State) (vs : List (Fin 4)) : State :=
  vs.foldl (fun t v => t.setVoice v (t.voice v).afterSample) s

/-- The state after `n` samples of all four voices. -/
def State.advanceTimes (s : State) : Nat → State
  | 0 => s
  | n + 1 => (s.advanceTimes n).advanceVoices voiceOrder

/-- `n` operations `TICK` in a row. -/
def tickTimes : Nat → State → Result
  | 0, s => .next s
  | n + 1, s =>
    match tickTimes n s with
    | .next t => exec .tick t
    | .fault f => .fault f
    | .refused r => .refused r

/-- `n` steps of the machine in a row. -/
def stepTimes : Nat → State → Result
  | 0, s => .next s
  | n + 1, s =>
    match stepTimes n s with
    | .next t => step t
    | .fault f => .fault f
    | .refused r => .refused r

/-! ### Ranges and safety -/

/-- The range of `cur` for a voice's effect kind (R29, R131, R136, R137). -/
def Voice.curInRange (V : Voice) : Prop :=
  match V.fx with
  | .none => sext32 V.cur = 0
  | .fixed => sext32 V.cur = sext32 V.level
  | .up =>
      (sext32 V.level = 0 → sext32 V.cur = 0) ∧
      (8 ≤ sext32 V.level → 2 ≤ sext32 V.cur ∧ sext32 V.cur ≤ sext32 V.level)
  | .down =>
      (sext32 V.level = 0 → 0 ≤ sext32 V.cur ∧ sext32 V.cur ≤ 1) ∧
      (8 ≤ sext32 V.level → 1 ≤ sext32 V.cur ∧ sext32 V.cur ≤ sext32 V.level)
  | .bounce =>
      (sext32 V.low < sext32 V.level → sext32 V.low ≤ sext32 V.cur ∧ sext32 V.cur ≤ sext32 V.level) ∧
      (sext32 V.level ≤ sext32 V.low →
        sext32 V.cur = sext32 V.level ∨ sext32 V.cur = sext32 V.low + 2 ∨ sext32 V.cur = sext32 V.level - 2)

/-- A voice whose fields hold the values R21 says they take, under the sample rate `rate`. -/
structure Voice.Ok (rate : Nat) (V : Voice) : Prop where
  hz_nonneg : 0 ≤ sext32 V.hz
  wl_of_hz : V.active = true → sext32 V.wl = (wavelength rate (sext32 V.hz).toNat : Int)
  wl_range : 0 ≤ sext32 V.wl ∧ sext32 V.wl ≤ (rate : Int)
  vol_scaled : ∃ c : Nat, c ≤ 10 ∧ sext32 V.vol = 6 * (c : Int)
  dur_nonneg : 0 ≤ sext32 V.dur
  level_scaled : ∃ m : Nat, m < 268435456 ∧ sext32 V.level = 8 * (m : Int)
  low_scaled : ∃ m : Nat, m < 268435456 ∧ sext32 V.low = 8 * (m : Int)
  cur_range : V.curInRange

/-- A `FILL` in progress: it has steps left, it has stored every byte of its range (R155) and no other (R61), in canonical form, and no
byte of its range is visible in `buf` (R62). -/
structure FillJob.Ok (buf : Memory) (job : FillJob) : Prop where
  unfinished : job.index < job.length
  stored : ∀ k, k < job.length → (job.bytes.read (job.base + k)).isSome = true
  inside : ∀ a, (a < job.base ∨ job.base + job.length ≤ a) → job.bytes.read a = none
  canonical : Memory.wf job.bytes
  hidden : ∀ k, k < job.length → buf.read (job.base + k) = none

/-- The `FILL` in progress, if one is, is well formed. -/
def State.jobOk (s : State) : Prop :=
  match s.fill with
  | none => True
  | some job => job.Ok s.buf

/-- The invariant of the machine. -/
structure State.Inv (s : State) : Prop where
  voices_ok : ∀ v, (s.voice v).Ok Config.sampleRate
  buf_canonical : Memory.wf s.buf
  job_ok : s.jobOk

/-- Every active voice has a wavelength, so that `SAMPLE` is defined on it (R114, R233). -/
def State.wavelengthsDefined (s : State) : Prop := ∀ v, (s.voice v).active = true → 0 < sext32 (s.voice v).wl

/-- An operation under the frequency ceiling of R255: a PLAY with `hz <= 2 * SAMPLE_RATE`. -/
def underCeiling (rate : Nat) : Instr → Prop
  | .play _ hz _ _ _ _ _ => hz ≤ 2 * (rate : Int)
  | .stop _ => True
  | .resume => True
  | .pause => True
  | .fill _ _ => True
  | .tick => True

/-- The software to come respects the frequency ceiling of R255. -/
def State.respectsCeiling (s : State) : Prop :=
  ∀ i ∈ s.pending, ∀ op, decodePacket i.port i.packet = .ok op → underCeiling Config.sampleRate op

/-- A safe state: the invariant holds, no active voice lacks a wavelength, and the software to come respects the ceiling. -/
structure State.Safe (s : State) : Prop where
  inv : s.Inv
  defined : s.wavelengthsDefined
  ceiling : s.respectsCeiling

end Sys2Proof.Machine
end

