-- ==== Sys2Proof/Certificates/Slice0/Obligations.lean ====
section
/-! DEFINITION. The statements about the model, for the provers. Each docstring names the rule of the spec it formalises. -/

open Sys2Proof Sys2Proof.Machine

/-! ### The command encoding -/

/-- 30_encoding.md R82 to R84: decoding the packet of a well-formed operation gives the operation back on its own port, with every
operand, and is refused on the other port. -/
def Obligations.DecodeEncodeRoundTrip : Prop :=
  ∀ (i : Instr) (p : Port), i.wellFormed = true →
    decodePacket p (encode i) = if p = i.port then .ok i else .error .wrongPort

/-- R89: the serialised form is 32 bytes, `W0` first, each word little-endian, and reading it back gives the packet and nothing else
does. -/
def Obligations.SerialisedPacketRoundTrip : Prop :=
  ∀ (k : Packet),
    k.bytes.length = 32 ∧
    (∀ n j, n < 8 → j < 4 → k.bytes[4 * n + j]? = some (BitVec.ofNat 8 ((k.words.getD n 0).toNat / 256 ^ j))) ∧
    (∀ bytes : List Byte, packetOfBytes bytes = some k ↔ bytes = k.bytes)

/-- R84 (the spec's own decision D2): the decoder, case by case. -/
def Obligations.DecodeFollowsOpcodeMap : Prop :=
  ∀ (p : Port) (k : Packet) (i : Instr),
    decodePacket p k = .ok i ↔
      (p = .host ∧ k.w0.toNat = 0x01 ∧
        i = .play k.w1.toInt k.w2.toInt k.w3.toInt k.w4.toInt k.w5.toInt k.w6.toInt k.w7.toInt) ∨
      (p = .host ∧ k.w0.toNat = 0x02 ∧ i = .stop k.w1.toInt) ∨
      (p = .host ∧ k.w0.toNat = 0x03 ∧ i = .resume) ∨
      (p = .host ∧ k.w0.toNat = 0x04 ∧ i = .pause) ∨
      (p = .audio ∧ k.w0.toNat = 0x10 ∧ i = .fill k.w1.toNat k.w2.toNat) ∨
      (p = .audio ∧ k.w0.toNat = 0x11 ∧ i = .tick)

/-- R82: a word the operand table marks `-` is not read, and any value is legal there. -/
def Obligations.IgnoredWordsAreNotRead : Prop :=
  ∀ (p : Port) (k l : Packet), k.w0 = l.w0 →
    ((k.w0 = 0x03#32 ∨ k.w0 = 0x04#32 ∨ k.w0 = 0x11#32) → decodePacket p k = decodePacket p l) ∧
    (k.w0 = 0x02#32 → k.w1 = l.w1 → decodePacket p k = decodePacket p l) ∧
    (k.w0 = 0x10#32 → k.w1 = l.w1 → k.w2 = l.w2 → decodePacket p k = decodePacket p l)

/-- R85 (the spec's own decision D22; the refusal's name is the model's): a packet with an opcode not in the map, a nonzero `W0[31:8]` or an operation on the wrong port is refused, whatever is in
progress; a PLAY with an operand out of range is a legal packet and a no-op. -/
def Obligations.ReservedPacketIsRefused : Prop :=
  ∀ (s : State) (issue : Issue) (rest : List Issue) (cut : Bool), s.turn = .operation issue rest cut →
    ((256 ≤ issue.packet.w0.toNat ∨
        (issue.port = .host ∧ issue.packet.w0.toNat ∉ [0x01, 0x02, 0x03, 0x04]) ∨
        (issue.port = .audio ∧ issue.packet.w0.toNat ∉ [0x10, 0x11])) →
      ∃ why, step s = .refused (.reservedPacket why)) ∧
    (issue.port = .host → issue.packet.w0.toNat = 0x01 →
      (issue.packet.w1.toInt < 0 ∨ 3 < issue.packet.w1.toInt ∨ issue.packet.w4.toInt < 0 ∨ 10 < issue.packet.w4.toInt ∨
        issue.packet.w5.toInt < 0 ∨ 4 < issue.packet.w5.toInt ∨ issue.packet.w3.toInt < 0) →
      step s = .next (s.setPending rest))

/-- 95_test_vectors.md V7: packets written out from the encoding tables decode to the operations they stand for. -/
def Obligations.WrittenOutPacketsDecode : Prop :=
  decodePacket .host ⟨0x00000001, 0x00000003, 0x00000FA0, 0, 0x00000001, 0x00000004, 0xFFFFFFFE, 0xFFFFFFFF⟩
      = .ok (.play 3 4000 0 1 4 (-2) (-1)) ∧
  decodePacket .host ⟨0x00000002, 0x00000003, 0xDEADBEEF, 0, 0, 0, 0, 0⟩ = .ok (.stop 3) ∧
  decodePacket .host ⟨0x00000003, 0, 0, 0, 0, 0, 0, 0⟩ = .ok .resume ∧
  decodePacket .host ⟨0x00000004, 0, 0, 0, 0, 0, 0, 0⟩ = .ok .pause ∧
  decodePacket .audio ⟨0x00000010, 0xFFFFFFF0, 0x00000008, 0, 0, 0, 0, 0⟩ = .ok (.fill 4294967280 8) ∧
  decodePacket .audio ⟨0x00000011, 1, 2, 3, 4, 5, 6, 7⟩ = .ok .tick

/-! ### PLAY, STOP, RESUME, PAUSE -/

/-- 43_voice_control.md R170: a PLAY is rejected on exactly the seven conditions and then changes nothing; on every other `voice`,
`volume`, `effect` and `durationMs` it is accepted whatever `hz`, `effectLevel` and `effectLow` of the domain are, which shows in
the stored duration, the phase and `run`. -/
def Obligations.PlayIsValidatedSilently : Prop :=
  ∀ (s : State) (voice hz durationMs volume effect effectLevel effectLow : Int),
    ((voice < 0 ∨ 3 < voice ∨ volume < 0 ∨ 10 < volume ∨ effect < 0 ∨ 4 < effect ∨ durationMs < 0) →
      exec (.play voice hz durationMs volume effect effectLevel effectLow) s = .next s) ∧
    (¬(voice < 0 ∨ 3 < voice ∨ volume < 0 ∨ 10 < volume ∨ effect < 0 ∨ 4 < effect ∨ durationMs < 0) →
      IsInt32 durationMs → 0 ≤ hz → effectLevel.natAbs < 2 ^ 28 → effectLow.natAbs < 2 ^ 28 →
      ∃ t v, voice = (v : Fin 4).val ∧
        exec (.play voice hz durationMs volume effect effectLevel effectLow) s = .next t ∧
        t.run = true ∧ (t.voice v).phase = 0 ∧ (t.voice v).dur.toInt = durationMs)

/-- R174: the whole of PLAY, its encoding included. Rejected operands change nothing; accepted operands outside the domain of R180 are
refused, as R180 has a model do; inside it the ten fields of the one voice and `run` are written and nothing else is. -/
def Obligations.PlayLoadsTheVoice : Prop :=
  (∀ k : Packet, k.w0 = 0x00000001#32 → decodePacket .host k =
    .ok (.play k.w1.toInt k.w2.toInt k.w3.toInt k.w4.toInt k.w5.toInt k.w6.toInt k.w7.toInt)) ∧
  ∀ (s : State) (voice hz durationMs volume effect effectLevel effectLow : Int),
    (Instr.play voice hz durationMs volume effect effectLevel effectLow).wellFormed = true →
    (voice < 0 ∨ 3 < voice ∨ volume < 0 ∨ 10 < volume ∨ effect < 0 ∨ 4 < effect ∨ durationMs < 0 →
      exec (.play voice hz durationMs volume effect effectLevel effectLow) s = .next s) ∧
    (∀ (v : Fin 4) (kind : EffectKind), voice = v.val → effect = kind.code → 0 ≤ volume → volume ≤ 10 → 0 ≤ durationMs →
      (hz < 0 ∨ 2 ^ 28 ≤ effectLevel.natAbs ∨ 2 ^ 28 ≤ effectLow.natAbs →
        ∃ r, exec (.play voice hz durationMs volume effect effectLevel effectLow) s = .refused r) ∧
      (0 ≤ hz → effectLevel.natAbs < 2 ^ 28 → effectLow.natAbs < 2 ^ 28 →
        ∃ t, exec (.play voice hz durationMs volume effect effectLevel effectLow) s = .next t ∧
          (t.voice v).hz.toInt = hz ∧
          (t.voice v).wl.toInt = (if hz = 0 then 0 else ((Config.sampleRate : Int) * 10 / hz + 5) / 10) ∧
          (t.voice v).vol.toInt = volume * 6 ∧
          (t.voice v).dur.toInt = durationMs ∧
          (t.voice v).fx = kind ∧
          (t.voice v).level.toInt = effectLevel.natAbs * 8 ∧
          (t.voice v).low.toInt = effectLow.natAbs * 8 ∧
          (t.voice v).cur.toInt = (if effect = 0 then 0 else (effectLevel.natAbs : Int) * 8) ∧
          (t.voice v).dir.toInt = -1 ∧
          (t.voice v).phase = 0 ∧
          t.run = true ∧
          (∀ w, w ≠ v → t.voice w = s.voice w) ∧
          t.out = s.out ∧ t.buf = s.buf ∧ t.owned = s.owned ∧ t.fill = s.fill ∧ t.pending = s.pending))

/-- R180, 93 U2, U3: which refusal an accepted PLAY outside the domain meets: a negative frequency, or an effect argument of magnitude
`2^28` or more. The names of the refusals are the model's. -/
def Obligations.PlayOutsideDomainIsRefused : Prop :=
  ∀ (s : State) (v : Fin 4) (kind : EffectKind) (hz durationMs volume effectLevel effectLow : Int),
    0 ≤ volume → volume ≤ 10 → 0 ≤ durationMs →
    (hz < 0 → exec (.play v.val hz durationMs volume kind.code effectLevel effectLow) s = .refused .playNegativeFrequency) ∧
    (0 ≤ hz → (2 ^ 28 ≤ effectLevel.natAbs ∨ 2 ^ 28 ≤ effectLow.natAbs) →
      exec (.play v.val hz durationMs volume kind.code effectLevel effectLow) s = .refused .playEffectOutOfDomain)

/-- R177: effect parameters are taken as absolute values, so a negative argument gives the same voice as its magnitude, each argument for
itself. -/
def Obligations.EffectArgumentsAreMagnitudes : Prop :=
  ∀ (s : State) (voice hz durationMs volume effect effectLevel effectLow : Int),
    exec (.play voice hz durationMs volume effect effectLevel effectLow) s =
        exec (.play voice hz durationMs volume effect effectLevel.natAbs effectLow.natAbs) s ∧
    exec (.play voice hz durationMs volume effect (-effectLevel) effectLow) s =
        exec (.play voice hz durationMs volume effect effectLevel effectLow) s ∧
    exec (.play voice hz durationMs volume effect effectLevel (-effectLow)) s =
        exec (.play voice hz durationMs volume effect effectLevel effectLow) s

/-- R65, R182 to R184: a host operation issued twice in a row, with no operation of the audio agent between, leaves the state it leaves
when issued once. -/
def Obligations.HostOperationsAreIdempotent : Prop :=
  ∀ (i : Instr) (s t : State), i.port = .host → exec i s = .next t → exec i t = .next t

/-- R173: `WL(hz)` is the integer nearest to `SAMPLE_RATE / hz`, halves up, and where it is 0, 1 or more. -/
def Obligations.WavelengthIsNearestInteger : Prop :=
  ∀ (rate hz : Nat), 0 < hz →
    2 * hz * wavelength rate hz ≤ 2 * rate + hz ∧ 2 * rate + hz < 2 * hz * (wavelength rate hz + 1) ∧
    wavelength rate 1 = rate ∧
    (2 ≤ wavelength rate hz ↔ 3 * hz ≤ 2 * rate) ∧
    (wavelength rate hz = 0 ↔ 2 * rate < hz)

/-- R178: a tone starts at the peak: the first sample after an accepted PLAY whose wavelength is at least 2 is `+vol`, whatever the
effect. Said for every `SAMPLE_RATE` that R6 allows and for the block's own. -/
def Obligations.ToneStartsAtPeak : Prop :=
  (∀ (p : Params) (s t : State) (v : Fin 4) (hz durationMs volume effect effectLevel effectLow : Int), p.Legal →
    (Instr.play v.val hz durationMs volume effect effectLevel effectLow).wellFormed = true →
    0 ≤ volume → volume ≤ 10 → 0 ≤ effect → effect ≤ 4 → 0 ≤ durationMs →
    0 < hz → 3 * hz ≤ 2 * (p.sampleRate : Int) →
    play p v.val hz durationMs volume effect effectLevel effectLow s = .next t →
    (t.voice v).phase = 0 ∧
    sample (t.voice v).phase (t.voice v).wl (t.voice v).vol (t.voice v).cur = some (volume * 6)) ∧
  Config.params.Legal ∧
  (∀ (s : State) (voice hz durationMs volume effect effectLevel effectLow : Int),
    exec (.play voice hz durationMs volume effect effectLevel effectLow) s =
      play Config.params voice hz durationMs volume effect effectLevel effectLow s)

/-- R181 (for the voices outside 0..3 the spec's own decision D17): STOP writes `hz <- 0` in the one voice and nothing else, the voice is silent from then on, and a voice outside 0..3 is a
no-op. -/
def Obligations.StopSilencesOneVoice : Prop :=
  ∀ (s : State) (voice : Int),
    ((voice < 0 ∨ 3 < voice) → exec (.stop voice) s = .next s) ∧
    (∀ v : Fin 4, voice = v.val →
      ∃ t, exec (.stop voice) s = .next t ∧ t.voice v = { s.voice v with hz := 0 } ∧ (t.voice v).active = false ∧
        (∀ w, w ≠ v → t.voice w = s.voice w) ∧
        t.run = s.run ∧ t.out = s.out ∧ t.buf = s.buf ∧ t.owned = s.owned ∧ t.fill = s.fill ∧ t.pending = s.pending)

/-- R182 (the spec's own decision D18): RESUME writes `run <- 1` only, and is idempotent. -/
def Obligations.ResumeSetsRunOnly : Prop :=
  ∀ s : State, exec .resume s = .next { s with run := true } ∧
    exec .resume { s with run := true } = .next { s with run := true }

/-- R183 (the spec's own decision D18): PAUSE writes `run <- 0` only, is idempotent, and after it neither TICK nor FILL advances a voice. -/
def Obligations.PauseClearsRunOnly : Prop :=
  ∀ s : State, exec .pause s = .next { s with run := false } ∧
    exec .pause { s with run := false } = .next { s with run := false } ∧
    (∀ t, exec .tick { s with run := false } ≠ .next t) ∧
    (∀ base n t, exec (.fill base n) { s with run := false } ≠ .next t)

/-- 42_mixer.md R154 (the spec's own decision D18; the refusal's name is the model's): with `run = 0` a TICK or a FILL is refused. -/
def Obligations.PausedAudioOperationsAreRefused : Prop :=
  ∀ (s : State) (base n : Nat), s.run = false →
    exec .tick s = .refused .audioWhilePaused ∧ exec (.fill base n) s = .refused .audioWhilePaused

/-! ### The generator -/

/-- 40_generator.md R113: the whole of SAMPLE, in integer arithmetic. -/
def Obligations.SampleIsTheGatedSquare : Prop :=
  ∀ phase wl vol lvl : Word,
    (wl.toInt ≤ 0 → sample phase wl vol lvl = none) ∧
    (0 < wl.toInt →
      sample phase wl vol lvl = some
        (if 0 < lvl.toInt ∧ (phase.toNat : Int) / lvl.toInt % 2 = 1 then 0
         else if (phase.toNat : Int) % wl.toInt < wl.toInt / 2 then vol.toInt else -vol.toInt))

/-- R112: the gate is `lvl` samples open and `lvl` samples muted from the start of the tone, with period `2 * lvl`, and a level of 0 or
less never gates. -/
def Obligations.GateAlternatesEveryLevelSamples : Prop :=
  (∀ (lvl q r : Nat), r < lvl →
    gated (2 * lvl * q + r) lvl = false ∧ gated (2 * lvl * q + lvl + r) lvl = true) ∧
  (∀ (phase : Nat) (lvl : Int), lvl ≤ 0 → gated phase lvl = false)

/-- R111, R117: the square wave repeats every `wl` samples, and of one cycle `wl div 2` samples are high and the others low. -/
def Obligations.SquareWaveDutyCycle : Prop :=
  ∀ (wl : Nat) (vol : Int), 0 < wl → 0 < vol →
    (∀ p, square (p + wl) wl vol = square p wl vol) ∧
    (List.range wl).countP (fun p => square p wl vol == vol) = wl / 2 ∧
    (List.range wl).countP (fun p => square p wl vol == -vol) = wl - wl / 2

/-! ### The envelope -/

/-- 41_envelope.md R135: the whole of ENV_STEP, wherever its snap values are `int32`. -/
def Obligations.EnvStepFollowsItsTransitions : Prop :=
  ∀ V : Voice, V.low.toInt + 2 ≤ 2147483647 → -2147483648 ≤ V.level.toInt - 2 →
    (V.wl.toInt ≤ 0 → envStep V = none) ∧
    (0 < V.wl.toInt → (V.phase.toNat : Int) % V.wl.toInt ≠ 0 → envStep V = some V) ∧
    (0 < V.wl.toInt → (V.phase.toNat : Int) % V.wl.toInt = 0 →
      ∃ W, envStep V = some W ∧
        (W.hz = V.hz ∧ W.wl = V.wl ∧ W.vol = V.vol ∧ W.dur = V.dur ∧ W.phase = V.phase ∧ W.fx = V.fx ∧ W.level = V.level ∧
          W.low = V.low) ∧
        ((V.fx = .none ∨ V.fx = .fixed) → W = V) ∧
        (V.fx = .up → W.dir = V.dir ∧
          W.cur.toInt = if V.cur.toInt - 1 ≤ 1 then V.level.toInt else V.cur.toInt - 1) ∧
        (V.fx = .down → W.dir = V.dir ∧
          W.cur.toInt = if V.cur.toInt + 1 ≥ V.level.toInt then 1 else V.cur.toInt + 1) ∧
        (V.fx = .bounce →
          (V.cur.toInt + V.dir.toInt < V.low.toInt → W.cur.toInt = V.low.toInt + 2 ∧ W.dir = .ascending) ∧
          (V.low.toInt ≤ V.cur.toInt + V.dir.toInt → V.level.toInt < V.cur.toInt + V.dir.toInt →
            W.cur.toInt = V.level.toInt - 2 ∧ W.dir = .descending) ∧
          (V.low.toInt ≤ V.cur.toInt + V.dir.toInt → V.cur.toInt + V.dir.toInt ≤ V.level.toInt →
            W.cur.toInt = V.cur.toInt + V.dir.toInt ∧ W.dir = V.dir)))

/-- R132: the UP transition, and for `level >= 8` the stored values run `level, level-1, .., 2, level, ..`, a cycle of `level - 1`
boundaries. -/
def Obligations.UpEnvelopeCycle : Prop :=
  ∀ V : Voice, V.fx = .up →
    (envTransition V).cur.toInt = (if V.cur.toInt - 1 ≤ 1 then V.level.toInt else V.cur.toInt - 1) ∧
    (8 ≤ V.level.toInt → V.cur = V.level →
      (∀ k : Nat, (k : Int) < V.level.toInt - 1 → (envTransition^[k] V).cur.toInt = V.level.toInt - k) ∧
      envTransition^[(V.level.toInt - 1).toNat] V = V)

/-- R133: the DOWN transition, and for `level >= 8` the stored values after the start value run `1, 2, .., level-1, 1, ..`, a cycle of
`level - 1` boundaries. -/
def Obligations.DownEnvelopeCycle : Prop :=
  ∀ V : Voice, V.fx = .down →
    (envTransition V).cur.toInt = (if V.level.toInt ≤ V.cur.toInt + 1 then 1 else V.cur.toInt + 1) ∧
    (8 ≤ V.level.toInt → V.cur = V.level →
      (∀ k : Nat, (k : Int) < V.level.toInt - 1 → (envTransition^[k + 1] V).cur.toInt = k + 1) ∧
      envTransition^[(V.level.toInt - 1).toNat + 1] V = envTransition V)

/-- R137: for `level >= low + 8` BOUNCE, once it has turned at the bottom, climbs from `low + 2` to `level`, turns to `level - 2`, falls to
`low`, and turns to `low + 2` again: a cycle of `2 * (level - low) - 2` boundaries inside `[low, level]`. -/
def Obligations.BounceEnvelopeCycle : Prop :=
  ∀ (V : Voice) (d : Nat), V.fx = .bounce → 0 ≤ V.low.toInt → V.level.toInt = V.low.toInt + d → 8 ≤ d →
    V.cur.toInt = V.low.toInt + 2 → V.dir = .ascending →
    (∀ k, k ≤ d - 2 →
      (envTransition^[k] V).cur.toInt = V.low.toInt + 2 + k ∧ (envTransition^[k] V).dir = .ascending) ∧
    (∀ k, k ≤ d - 2 →
      (envTransition^[d - 1 + k] V).cur.toInt = V.level.toInt - 2 - k ∧ (envTransition^[d - 1 + k] V).dir = .descending) ∧
    envTransition^[2 * d - 2] V = V

/-- R137: for `low >= level` BOUNCE leaves the interval and alternates between `low + 2` and `level - 2`. -/
def Obligations.InvertedBounceAlternates : Prop :=
  ∀ (V : Voice) (k : Nat), V.fx = .bounce → 0 ≤ V.level.toInt → V.level.toInt ≤ V.low.toInt → V.low.toInt + 3 ≤ 2147483647 →
    V.cur = V.level → V.dir = .descending →
    ((envTransition^[2 * k + 1] V).cur.toInt = V.low.toInt + 2 ∧ (envTransition^[2 * k + 1] V).dir = .ascending) ∧
    ((envTransition^[2 * k + 2] V).cur.toInt = V.level.toInt - 2 ∧ (envTransition^[2 * k + 2] V).dir = .descending)

/-! ### The mixer -/

/-- 42_mixer.md R150: the whole of TICK while the block runs, its encoding included. Where every active voice has a wavelength it drives the wrapped sum of the
active voices' samples on `SILENCE`, makes one sample of each voice and changes nothing else; where one has none it raises
`UndefinedWavelength`, and nothing else is raised. -/
def Obligations.TickProducesOneMixedSample : Prop :=
  (∀ k : Packet, k.w0 = 0x00000011#32 → decodePacket .audio k = .ok .tick) ∧
  ∀ s : State, s.run = true →
    ((∀ v, (s.voice v).hz ≠ 0 → 0 < (s.voice v).wl.toInt) →
      ∃ t, exec .tick s = .next t ∧
        t.out = some (Config.silence + BitVec.ofInt 8 ((s.voice 0).contribution + (s.voice 1).contribution +
          (s.voice 2).contribution + (s.voice 3).contribution)) ∧
        (∀ v, t.voice v = (s.voice v).afterSample) ∧
        t.run = s.run ∧ t.buf = s.buf ∧ t.owned = s.owned ∧ t.fill = s.fill ∧ t.pending = s.pending) ∧
    (¬(∀ v, (s.voice v).hz ≠ 0 → 0 < (s.voice v).wl.toInt) →
      ∃ v, (s.voice v).hz ≠ 0 ∧ (s.voice v).wl.toInt ≤ 0 ∧ exec .tick s = .fault (.undefinedWavelength v))

/-- 60_exceptions.md R233, R235: an active voice with `wl <= 0` makes a TICK, and a FILL of at least one byte, fault, at the
lowest-numbered such voice. -/
def Obligations.UndefinedWavelengthFaultsAtTheFirstVoice : Prop :=
  ∀ (s : State) (v : Fin 4) (base n : Nat), s.run = true →
    (s.voice v).hz ≠ 0 → (s.voice v).wl.toInt ≤ 0 →
    (∀ w, w < v → (s.voice w).hz ≠ 0 → 0 < (s.voice w).wl.toInt) →
    exec .tick s = .fault (.undefinedWavelength v) ∧
    (0 < n → s.ownsRange base n = true → exec (.fill base n) s = .fault (.undefinedWavelength v))

/-- R152, R116: with volumes of the internal unit the sum of the samples lies in -240..240, and the output is `SILENCE` plus that sum
modulo 256. -/
def Obligations.MixIsTheWrappedSum : Prop :=
  ∀ s t : State, (∀ v, 0 ≤ (s.voice v).vol.toInt ∧ (s.voice v).vol.toInt ≤ 60) → exec .tick s = .next t →
    ∃ (sum : Int) (x : Byte), sum = s.mixSum [0, 1, 2, 3] ∧ -240 ≤ sum ∧ sum ≤ 240 ∧ t.out = some x ∧
      (x.toNat : Int) = ((Config.silence.toNat : Int) + sum) % 256

/-- 70_reset_and_hazards.md R256: while the internal volumes of the active voices add to at most 127 the mix does not wrap: the output,
taken from `SILENCE`, is the sum itself as a signed byte. -/
def Obligations.QuietMixDoesNotWrap : Prop :=
  ∀ s t : State, (∀ v, 0 ≤ (s.voice v).vol.toInt) →
    (([0, 1, 2, 3] : List (Fin 4)).map (fun v => if (s.voice v).active then (s.voice v).vol.toInt else 0)).sum ≤ 127 →
    exec .tick s = .next t →
    ∃ x : Byte, t.out = some x ∧ (x - Config.silence).toInt = s.mixSum [0, 1, 2, 3]

/-- R153: neither the output nor the final state depends on the order in which the voices are handled. -/
def Obligations.VoiceOrderDoesNotMatter : Prop :=
  ∀ (s : State) (acc : Byte) (vs : List (Fin 4)), vs.Perm [0, 1, 2, 3] →
    (∀ v, (s.voice v).hz ≠ 0 → 0 < (s.voice v).wl.toInt) →
    tickVoices vs acc s = tickVoices [0, 1, 2, 3] acc s ∧
    ∃ out t, tickVoices vs acc s = .ok (out, t)

/-- 20_memory.md R75: what a voice does in a sample depends on no other voice. -/
def Obligations.VoicesAreIndependent : Prop :=
  ∀ (s t t' : State) (w : Fin 4) (V : Voice), exec .tick s = .next t → exec .tick (s.setVoice w V) = .next t' →
    ∀ v, v ≠ w → t.voice v = t'.voice v

/-- R155, R61: a FILL of an owned range, while the block runs and every active voice has a wavelength, completes: byte `base + k` holds
`SILENCE` plus the samples of the voices after `k` samples, every other byte reads as before, each voice has made `n` samples, and
nothing else changes. -/
def Obligations.FillWritesExactlyItsRange : Prop :=
  ∀ (s : State) (base n : Nat), s.run = true → s.ownsRange base n = true →
    (∀ v, (s.voice v).hz ≠ 0 → 0 < (s.voice v).wl.toInt) →
    ∃ t, exec (.fill base n) s = .next t ∧
      (∀ k, k < n → t.buf.read (base + k) = some (Config.silence + BitVec.ofInt 8
        ((Voice.afterSample^[k] (s.voice 0)).contribution + (Voice.afterSample^[k] (s.voice 1)).contribution +
         (Voice.afterSample^[k] (s.voice 2)).contribution + (Voice.afterSample^[k] (s.voice 3)).contribution))) ∧
      (∀ a, (a < base ∨ base + n ≤ a) → t.buf.read a = s.buf.read a) ∧
      (∀ v, t.voice v = Voice.afterSample^[n] (s.voice v)) ∧
      t.run = s.run ∧ t.out = s.out ∧ t.owned = s.owned ∧ t.fill = s.fill ∧ t.pending = s.pending

/-- 93 U7, R62: a FILL over a range the audio agent does not own is refused. The name of the refusal is the model's. -/
def Obligations.UnownedBufferIsRefused : Prop :=
  ∀ (s : State) (base n : Nat), s.run = true → 0 < n →
    (∀ r ∈ s.owned, base < r.base ∨ r.base + r.size < base + n) →
    exec (.fill base n) s = .refused .bufferNotOwned

/-- R157: a FILL of `n` bytes leaves the voice state that `n` TICKs leave, byte `base + k` holds the `out` of the `k`-th of them, and
where one faults the other does, with the same fault. -/
def Obligations.FillIsTicks : Prop :=
  ∀ (s : State) (base n : Nat),
    (∀ t, exec (.fill base n) s = .next t →
      (∃ u, tickTimes n s = .next u ∧ t.voices = u.voices ∧ t.run = u.run) ∧
      ∀ k, k < n → ∃ u x, tickTimes (k + 1) s = .next u ∧ u.out = some x ∧ t.buf.read (base + k) = some x) ∧
    (∀ f, exec (.fill base n) s = .fault f → tickTimes n s = .fault f)

/-- R156: a FILL of no bytes is legal, writes nothing and changes no state. -/
def Obligations.EmptyFillChangesNothing : Prop :=
  ∀ (s : State) (base : Nat), s.run = true → exec (.fill base 0) s = .next s

/-- R159: with all four voices silent TICK yields `SILENCE` and FILL sets every byte of its range to `SILENCE`, and neither changes the
voices or `run`. -/
def Obligations.SilentBlockMixesSilence : Prop :=
  ∀ s : State, s.run = true → (∀ v, (s.voice v).hz = 0) →
    exec .tick s = .next { s with out := some Config.silence } ∧
    (∀ base n, s.ownsRange base n = true →
      ∃ t, exec (.fill base n) s = .next t ∧ t.voices = s.voices ∧ t.run = s.run ∧ t.out = s.out ∧
        ∀ a, t.buf.read a = if base ≤ a ∧ a < base + n then some Config.silence else s.buf.read a)

/-- R158: TICK and FILL write `phase`, `cur` and (BOUNCE) `dir` of the active voices only; they never write the other fields, a silent
voice, or `run`, and no voice becomes silent or active. Nothing else advances a phase, and only PLAY and STOP change `hz`. -/
def Obligations.MixerKeepsTheLoadedFields : Prop :=
  ∀ (i : Instr) (s t : State), exec i s = .next t →
    (i.port = .audio →
      t.run = s.run ∧
      ∀ v, (t.voice v).hz = (s.voice v).hz ∧ (t.voice v).wl = (s.voice v).wl ∧ (t.voice v).vol = (s.voice v).vol ∧
        (t.voice v).dur = (s.voice v).dur ∧ (t.voice v).fx = (s.voice v).fx ∧ (t.voice v).level = (s.voice v).level ∧
        (t.voice v).low = (s.voice v).low ∧ ((s.voice v).fx ≠ .bounce → (t.voice v).dir = (s.voice v).dir) ∧
        (t.voice v).active = (s.voice v).active ∧ ((s.voice v).active = false → t.voice v = s.voice v)) ∧
    (i.port = .host → ∀ v, (t.voice v).phase = (s.voice v).phase ∨ (t.voice v).phase = 0) ∧
    (∀ v, (t.voice v).hz ≠ (s.voice v).hz → (∃ hz d vol e l w, i = .play v.val hz d vol e l w) ∨ i = .stop v.val)

/-! ### Rules of the whole machine -/

/-- 10_state.md R34: PLAY and STOP write the one voice they name, TICK and FILL write no field but `phase`, `cur` and `dir`, RESUME and
PAUSE write `run` only, and no other operation writes anything of a voice. -/
def Obligations.OnlyOwnersWriteVoices : Prop :=
  ∀ (i : Instr) (s t : State), exec i s = .next t →
    (∀ v, t.voice v ≠ s.voice v →
      (∃ hz d vol e l w, i = .play v.val hz d vol e l w) ∨
      (i = .stop v.val ∧ t.voice v = { s.voice v with hz := 0 }) ∨
      ((i = .tick ∨ ∃ base n, i = .fill base n) ∧
        t.voice v = { s.voice v with phase := (t.voice v).phase, cur := (t.voice v).cur, dir := (t.voice v).dir } ∧
        ((s.voice v).fx ≠ .bounce → (t.voice v).dir = (s.voice v).dir))) ∧
    ((i = .resume ∨ i = .pause) → t = { s with run := t.run }) ∧
    (t.run ≠ s.run → i = .resume ∨ i = .pause ∨ ∃ v hz d vol e l w, i = .play v hz d vol e l w) ∧
    (t.buf ≠ s.buf → ∃ base n, i = .fill base n) ∧
    (t.out ≠ s.out → i = .tick) ∧
    t.owned = s.owned ∧ t.fill = s.fill ∧ t.pending = s.pending

/-- R26 (32 bits and the wrap are the spec's own decision D4): the phase index counts one for every sample an active voice contributes,
modulo `2^32`; the only other rule that writes it is the `phase <- 0` of an accepted PLAY. -/
def Obligations.PhaseIsResetOnlyAtToneStart : Prop :=
  ∀ (i : Instr) (s t : State), exec i s = .next t → ∀ v,
    (i = .tick → (t.voice v).phase.toNat =
      if (s.voice v).hz = 0 then (s.voice v).phase.toNat else ((s.voice v).phase.toNat + 1) % 2 ^ 32) ∧
    (∀ base n, i = .fill base n → (t.voice v).phase.toNat =
      if (s.voice v).hz = 0 then (s.voice v).phase.toNat else ((s.voice v).phase.toNat + n) % 2 ^ 32) ∧
    (∀ voice hz d vol e l w, i = .play voice hz d vol e l w → (t.voice v).phase =
      if voice = v.val ∧ 0 ≤ vol ∧ vol ≤ 10 ∧ 0 ≤ e ∧ e ≤ 4 ∧ 0 ≤ d then 0 else (s.voice v).phase) ∧
    ((i = .resume ∨ i = .pause ∨ ∃ voice, i = .stop voice) → (t.voice v).phase = (s.voice v).phase)

/-- R36: the state after reset, which the spec marks as its own choice (D14). -/
def Obligations.ResetSilencesEveryVoice : Prop :=
  (∀ v, (State.reset.voice v).hz = 0 ∧ (State.reset.voice v).wl = 0 ∧ (State.reset.voice v).vol = 0 ∧
    (State.reset.voice v).dur = 0 ∧ (State.reset.voice v).phase = 0 ∧ (State.reset.voice v).fx = .none ∧
    (State.reset.voice v).level = 0 ∧ (State.reset.voice v).low = 0 ∧ (State.reset.voice v).cur = 0 ∧
    (State.reset.voice v).dir.toInt = 1) ∧
  State.reset.run = false

/-- 70_reset_and_hazards.md R250 (the spec's own decision D14; what reset leaves of the inputs and of `BUF` is the model's choice,
notes/assumptions/11.md): reset in any state puts every field of the block at its reset value and discards the operation in progress. -/
def Obligations.ResetDiscardsTheOperationInProgress : Prop :=
  ∀ s : State, (∀ v, s.assertReset.voice v = State.reset.voice v) ∧ s.assertReset.run = false ∧ s.assertReset.fill = none ∧
    s.assertReset.buf = s.buf ∧ s.assertReset.pending = s.pending ∧ (Memory.wf s.buf → s.assertReset.Inv)

/-- R21, R35: the state after reset meets the invariant. -/
def Obligations.ResetMeetsInvariant : Prop := State.reset.Inv

/-- R21, R29, R35, R136, R137: every step keeps the ranges of the voice fields (the envelope level within the bounds its kind has, the
wavelength that of the frequency), the canonical form of `BUF`, and the written range of a FILL in progress. -/
def Obligations.StepKeepsInvariant : Prop :=
  ∀ s t : State, s.Inv → step s = .next t → t.Inv

/-- The model's own form of `BUF` (notes/assumptions/3.md): every step keeps it canonical, and a byte once written stays written unless a
FILL of it is in progress. -/
def Obligations.StepKeepsBufferCanonical : Prop :=
  ∀ s t : State, step s = .next t →
    (Memory.wf s.buf → Memory.wf t.buf) ∧
    (s.jobOk → ∀ a, (s.buf.read a).isSome = true →
      (t.buf.read a).isSome = true ∨ ∃ job, t.fill = some job ∧ job.base ≤ a ∧ a < job.base + job.length)

/-- R255, R233: software that keeps the frequency ceiling `hz <= 2 * SAMPLE_RATE` never meets a fault: from a safe state no step faults,
and the next state is safe. -/
def Obligations.SoftwareUnderTheCeilingNeverFaults : Prop :=
  ∀ s : State, s.Safe → (∀ f, step s ≠ .fault f) ∧ ∀ t, step s = .next t → t.Safe

/-- R68, R69, R73: what a step runs. Nothing issued and no FILL in progress: nothing. No FILL in progress: the next issue's operation,
decoded when it takes its place; a FILL that a host operation cuts into runs whole where `FILL_ATOMIC = 1` and is opened where
`FILL_ATOMIC = 0`. A FILL in progress: a host operation whose place is reached, else the next sample step, be anything issued or not and
be it an operation or not; while paused, the next issue, and where none is issued the state stands still. -/
def Obligations.StepRunsTheNextOperation : Prop :=
  ∀ s : State,
    (s.fill = none → s.pending = [] → step s = .next s) ∧
    (∀ job, s.fill = some job → s.pending = [] → s.run = true → step s = stepFill job s) ∧
    (∀ job, s.fill = some job → s.pending = [] → s.run = false → step s = .next s) ∧
    (∀ job issue rest, s.fill = some job → s.pending = issue :: rest → s.run = true →
      (issue.port = .audio ∨ issue.cutIn = none ∨ ∃ k, issue.cutIn = some k ∧ job.index < k) → step s = stepFill job s) ∧
    (∀ issue rest i, s.pending = issue :: rest → decodePacket issue.port issue.packet = .ok i →
      (s.fill = none → (nextCuts rest = true → ∀ base n, i ≠ .fill base n) → step s = exec i (s.setPending rest)) ∧
      (s.fill = none → nextCuts rest = true → ∀ base n, i = .fill base n →
        step s = if Config.fillAtomic then exec i (s.setPending rest)
          else openFill Config.params base n (s.setPending rest)) ∧
      (∀ job k, s.fill = some job → issue.port = .host → issue.cutIn = some k → k ≤ job.index →
        step s = exec i (s.setPending rest)) ∧
      (∀ job, s.fill = some job → s.run = false → step s = exec i (s.setPending rest)))

/-- The opcode table's bits, placed as the next operation, are what the next step runs (notes/assumptions/6.md). -/
def Obligations.PlacedWordIsRunNext : Prop :=
  ∀ (s : State) (nbits w : Nat) (i : Instr), decodeTableWord nbits w = some i →
    step (s.withFetchWord nbits w) = exec i ((s.withFetchWord nbits w).setPending []) ∧
    (s.withFetchWord nbits w).voices = s.voices ∧ (s.withFetchWord nbits w).buf = s.buf ∧
    ((s.withFetchWord nbits w).run = s.run ∨ i.port = .audio)

/-- R62: of a FILL only the final contents are visible. Opened, it leaves no byte of its range a visible value and every other byte as it
was; a sample step that is not the last changes nothing of `BUF`; the last one makes all its bytes visible and no other. Reset shows nothing
of a FILL it discards. (That a byte without a visible value has none is the model's form of it, notes/assumptions/3.md.) -/
def Obligations.OnlyFinalContentsAreVisible : Prop :=
  (∀ (s u : State) (base n : Nat), 0 < n → openFill Config.params base n s = .next u →
    ∀ a, u.buf.read a = if base ≤ a ∧ a < base + n then none else s.buf.read a) ∧
  (∀ (job : FillJob) (s t : State), job.Ok s.buf → stepFill job s = .next t →
    (job.index + 1 < job.length → t.buf = s.buf ∧ ∃ next, t.fill = some next ∧ next.Ok t.buf) ∧
    (job.index + 1 = job.length → t.fill = none ∧
      (∀ k, k < job.length → (t.buf.read (job.base + k)).isSome = true) ∧
      ∀ a, (a < job.base ∨ job.base + job.length ≤ a) → t.buf.read a = s.buf.read a)) ∧
  (∀ (s : State) (job : FillJob), s.fill = some job → job.Ok s.buf →
    ∀ k, k < job.length → s.assertReset.buf.read (job.base + k) = none)

/-- R69, R157: a FILL opened and run sample step by sample step, with no host operation inside it, ends in the state the whole FILL
answers. -/
def Obligations.OpenedFillEqualsWholeFill : Prop :=
  ∀ (s u : State) (base n : Nat), s.fill = none → nextCuts s.pending = false → 0 < n →
    (∀ v, (s.voice v).hz ≠ 0 → 0 < (s.voice v).wl.toInt) →
    openFill Config.params base n s = .next u →
    ∃ t, exec (.fill base n) s = .next t ∧ stepTimes n u = .next t

/-- R69, R70, R157: a host operation that falls inside a FILL after `k` of its `n` samples, and leaves the block running, has the effect of
the FILL of the first `k` bytes, the operation, and the FILL of the other `n - k`: every sample is computed from whole voices, old
or new. -/
def Obligations.HostOperationFallsBetweenSamples : Prop :=
  ∀ (s a b c u : State) (base n k : Nat) (issue : Issue) (i : Instr),
    s.fill = none → s.pending = [issue] → issue.port = .host → issue.cutIn = some k → 0 < k → k < n →
    decodePacket issue.port issue.packet = .ok i →
    exec (.fill base k) (s.setPending []) = .next a → exec i a = .next b → b.run = true →
    exec (.fill (base + k) (n - k)) b = .next c →
    openFill Config.params base n s = .next u →
    ∃ t, stepTimes (n + 1) u = .next t ∧ t.voices = c.voices ∧ t.run = c.run ∧ t.out = c.out ∧ t.fill = none ∧
      t.pending = [] ∧ ∀ x, t.buf.read x = c.buf.read x

/-! ### The host software -/

/-- 45_host_software.md R200, R201: `playTone` issues nothing for operands that fail validation; else the PLAY, and for a positive duration
the least number of 50 ms quanta that reaches it, then the STOP. -/
def Obligations.PlayToneWaitsWholeQuanta : Prop :=
  ∀ voice hz durationMs volume effect effectLevel effectLow : Int,
    ((voice < 0 ∨ 3 < voice ∨ volume < 0 ∨ 10 < volume ∨ effect < 0 ∨ 4 < effect ∨ durationMs < 0) →
      playTone voice hz durationMs volume effect effectLevel effectLow = []) ∧
    (0 ≤ voice → voice ≤ 3 → 0 ≤ volume → volume ≤ 10 → 0 ≤ effect → effect ≤ 4 →
      (durationMs = 0 → playTone voice hz durationMs volume effect effectLevel effectLow =
        [.issue (.play voice hz durationMs volume effect effectLevel effectLow)]) ∧
      (0 < durationMs → ∃ q : Nat, durationMs ≤ 50 * (q : Int) ∧ 50 * (q : Int) < durationMs + 50 ∧
        playTone voice hz durationMs volume effect effectLevel effectLow =
          .issue (.play voice hz durationMs volume effect effectLevel effectLow) ::
            (List.replicate q .waitQuantum ++ [.issue (.stop voice)])))

/-- R213: `playNotes` issues nothing but PLAYs on voice 0 with no effect, of `incrementMs * (1 + holds)` milliseconds, waits, and STOPs of
voice 0; below 50 ms it issues nothing (R205). -/
def Obligations.NotesPlayOnVoiceZero : Prop :=
  ∀ (table : OctaveTable) (incrementMs volume : Int) (notes : List Char),
    (incrementMs < 50 → playNotesWith table incrementMs volume notes = []) ∧
    ∀ a ∈ playNotesWith table incrementMs volume notes,
      a = .waitQuantum ∨ a = .issue (.stop 0) ∨
      ∃ hz holds : Nat, a = .issue (.play 0 hz (incrementMs * (1 + holds)) volume 0 0 0)

/-- R215: the scan takes at least one character a token, so the bound on the number of tokens cuts nothing off. -/
def Obligations.NoteScanIsNotCutOff : Prop :=
  ∀ (table : OctaveTable) (incrementMs volume : Int) (fuel : Nat) (octave : Fin 4) (notes : List Char),
    notes.length ≤ fuel →
    scanNotes table incrementMs volume fuel octave notes = scanNotes table incrementMs volume notes.length octave notes

/-- R214: an unrecognized character where a note is expected is skipped and the scan goes on, wherever in the string and at whatever
octave it is met; it never ends the sequence. -/
def Obligations.UnknownCharacterIsSkipped : Prop :=
  ∀ (table : OctaveTable) (incrementMs volume : Int) (c : Char) (notes : List Char),
    c ∉ ['^', 'v', '1', '2', '3', '4', 'A', 'B', 'C', 'D', 'E', 'F', 'G', ' '] →
    (∀ (fuel : Nat) (octave : Fin 4),
      scanNotes table incrementMs volume (fuel + 1) octave (c :: notes) = scanNotes table incrementMs volume fuel octave notes) ∧
    playNotesWith table incrementMs volume (c :: notes) = playNotesWith table incrementMs volume notes
end

