-- ==== Sys2Proof/Laws/State.lean ====
section
/-! SUPPORT. One lemma per field per update of State, each by rfl, and the laws of the voice file. -/

namespace Sys2Proof.Machine

section Fields

variable (s : State) (v : Fin 4) (V : Voice) (x : Byte) (m : Memory) (j : Option FillJob) (l : List Issue) (b : Bool)

@[simp] theorem State.setVoice_run : (s.setVoice v V).run = s.run := rfl
@[simp] theorem State.setVoice_out : (s.setVoice v V).out = s.out := rfl
@[simp] theorem State.setVoice_buf : (s.setVoice v V).buf = s.buf := rfl
@[simp] theorem State.setVoice_owned : (s.setVoice v V).owned = s.owned := rfl
@[simp] theorem State.setVoice_fill : (s.setVoice v V).fill = s.fill := rfl
@[simp] theorem State.setVoice_pending : (s.setVoice v V).pending = s.pending := rfl

@[simp] theorem State.setOut_voices : (s.setOut x).voices = s.voices := rfl
@[simp] theorem State.setOut_voice : (s.setOut x).voice v = s.voice v := rfl
@[simp] theorem State.setOut_run : (s.setOut x).run = s.run := rfl
@[simp] theorem State.setOut_out : (s.setOut x).out = some x := rfl
@[simp] theorem State.setOut_buf : (s.setOut x).buf = s.buf := rfl
@[simp] theorem State.setOut_owned : (s.setOut x).owned = s.owned := rfl
@[simp] theorem State.setOut_fill : (s.setOut x).fill = s.fill := rfl
@[simp] theorem State.setOut_pending : (s.setOut x).pending = s.pending := rfl

@[simp] theorem State.setBuf_voices : (s.setBuf m).voices = s.voices := rfl
@[simp] theorem State.setBuf_voice : (s.setBuf m).voice v = s.voice v := rfl
@[simp] theorem State.setBuf_run : (s.setBuf m).run = s.run := rfl
@[simp] theorem State.setBuf_out : (s.setBuf m).out = s.out := rfl
@[simp] theorem State.setBuf_buf : (s.setBuf m).buf = m := rfl
@[simp] theorem State.setBuf_owned : (s.setBuf m).owned = s.owned := rfl
@[simp] theorem State.setBuf_fill : (s.setBuf m).fill = s.fill := rfl
@[simp] theorem State.setBuf_pending : (s.setBuf m).pending = s.pending := rfl

@[simp] theorem State.setFill_voices : (s.setFill j).voices = s.voices := rfl
@[simp] theorem State.setFill_voice : (s.setFill j).voice v = s.voice v := rfl
@[simp] theorem State.setFill_run : (s.setFill j).run = s.run := rfl
@[simp] theorem State.setFill_out : (s.setFill j).out = s.out := rfl
@[simp] theorem State.setFill_buf : (s.setFill j).buf = s.buf := rfl
@[simp] theorem State.setFill_owned : (s.setFill j).owned = s.owned := rfl
@[simp] theorem State.setFill_fill : (s.setFill j).fill = j := rfl
@[simp] theorem State.setFill_pending : (s.setFill j).pending = s.pending := rfl

@[simp] theorem State.setPending_voices : (s.setPending l).voices = s.voices := rfl
@[simp] theorem State.setPending_voice : (s.setPending l).voice v = s.voice v := rfl
@[simp] theorem State.setPending_run : (s.setPending l).run = s.run := rfl
@[simp] theorem State.setPending_out : (s.setPending l).out = s.out := rfl
@[simp] theorem State.setPending_buf : (s.setPending l).buf = s.buf := rfl
@[simp] theorem State.setPending_owned : (s.setPending l).owned = s.owned := rfl
@[simp] theorem State.setPending_fill : (s.setPending l).fill = s.fill := rfl
@[simp] theorem State.setPending_pending : (s.setPending l).pending = l := rfl

@[simp] theorem State.setRun_voices : (s.setRun b).voices = s.voices := rfl
@[simp] theorem State.setRun_voice : (s.setRun b).voice v = s.voice v := rfl
@[simp] theorem State.setRun_run : (s.setRun b).run = b := rfl
@[simp] theorem State.setRun_out : (s.setRun b).out = s.out := rfl
@[simp] theorem State.setRun_buf : (s.setRun b).buf = s.buf := rfl
@[simp] theorem State.setRun_owned : (s.setRun b).owned = s.owned := rfl
@[simp] theorem State.setRun_fill : (s.setRun b).fill = s.fill := rfl
@[simp] theorem State.setRun_pending : (s.setRun b).pending = s.pending := rfl

end Fields

/-! ### The voice file -/

@[simp] theorem State.voice_setVoice_same (s : State) (v : Fin 4) (V : Voice) : (s.setVoice v V).voice v = V := by
  simp [State.voice, State.setVoice]

theorem State.voice_setVoice_ne (s : State) {v w : Fin 4} (V : Voice) (h : w ≠ v) : (s.setVoice v V).voice w = s.voice w := by
  have : (v : Nat) ≠ w := fun e => h (Fin.ext e.symm)
  simp [State.voice, State.setVoice, this]

theorem State.voice_setVoice (s : State) (v w : Fin 4) (V : Voice) :
    (s.setVoice v V).voice w = if w = v then V else s.voice w := by
  split
  · rename_i h; subst h; simp
  · rename_i h; exact s.voice_setVoice_ne V h

/-- Two states with the same voices, flag, outputs and inputs are the same state. -/
theorem State.ext_voice {s t : State} (hv : ∀ v, s.voice v = t.voice v) (hr : s.run = t.run) (ho : s.out = t.out)
    (hb : s.buf = t.buf) (hw : s.owned = t.owned) (hf : s.fill = t.fill) (hp : s.pending = t.pending) : s = t := by
  have hvs : s.voices = t.voices := Vector.ext fun i hi => hv ⟨i, hi⟩
  cases s; cases t; simp_all

@[simp] theorem State.setVoice_voice (s : State) (v : Fin 4) : s.setVoice v (s.voice v) = s := by
  apply State.ext_voice <;> try rfl
  intro w; rw [State.voice_setVoice]; split <;> simp_all

@[simp] theorem State.setVoice_setVoice (s : State) (v : Fin 4) (V W : Voice) :
    (s.setVoice v V).setVoice v W = s.setVoice v W := by
  apply State.ext_voice <;> try rfl
  intro w; simp only [State.voice_setVoice]; split <;> simp_all

/-- Writes of two different voices commute (R75). -/
theorem State.setVoice_comm (s : State) {v w : Fin 4} (V W : Voice) (h : v ≠ w) :
    (s.setVoice v V).setVoice w W = (s.setVoice w W).setVoice v V := by
  apply State.ext_voice <;> try rfl
  intro u
  simp only [State.voice_setVoice]
  by_cases h₁ : u = w <;> by_cases h₂ : u = v <;> simp_all

/-- Every voice after reset is `Voice.reset` (R36). -/
@[simp] theorem State.reset_voice (v : Fin 4) : State.reset.voice v = Voice.reset := by
  simp [State.voice, State.reset]

/-! ### The run flag -/

/-- What the gate of the audio operations can answer (R154). -/
theorem whileRunning_next {s t : State} {r : Result} (h : whileRunning s r = .next t) : s.run = true ∧ r = .next t := by
  unfold whileRunning at h; split at h <;> simp_all

theorem whileRunning_of_run {s : State} {r : Result} (h : s.run = true) : whileRunning s r = r := by simp [whileRunning, h]

/-- `raising` answers a next state exactly where nothing is raised (R12, R236). -/
theorem raising_eq_next {r : Except Fault State} {t : State} : raising r = .next t ↔ r = .ok t := by
  unfold raising; split <;> simp_all

end Sys2Proof.Machine
end

