-- ==== Sys2Proof/Laws/Memory.lean ====
section
/-! SUPPORT. The laws of `BUF` (20_memory.md R61): read after write, writes elsewhere, the canonical form, the silence write. -/

namespace Sys2Proof.Machine

@[simp] theorem Memory.read_write_same (m : Memory) (a : Nat) (x : Byte) : (Memory.write m a x).read a = some x := by
  induction m with
  | nil => simp [Memory.write, Memory.read]
  | cons c m ih =>
    obtain ⟨b, y⟩ := c
    simp only [Memory.write]
    split
    · simp [Memory.read]
    · split
      · simp [Memory.read]
      · rename_i h₁ h₂; simp [Memory.read, h₂, ih]

theorem Memory.read_write_ne (m : Memory) {a c : Nat} (x : Byte) (h : c ≠ a) :
    (Memory.write m a x).read c = Memory.read m c := by
  induction m with
  | nil => simp [Memory.write, Memory.read, h]
  | cons d m ih =>
    obtain ⟨b, y⟩ := d
    simp only [Memory.write]
    split
    · simp [Memory.read, h]
    · split
      · rename_i h₂; subst h₂; simp [Memory.read, h]
      · simp [Memory.read, ih]

theorem Memory.read_write (m : Memory) (a c : Nat) (x : Byte) :
    (Memory.write m a x).read c = if c = a then some x else Memory.read m c := by
  split
  · rename_i h; subst h; simp
  · rename_i h; exact Memory.read_write_ne m x h

/-- Every cell of a memory after a write was there before or is the one written. -/
theorem Memory.mem_write {m : Memory} {a : Nat} {x : Byte} {c : Host.Cell} (h : c ∈ Memory.write m a x) :
    c = (a, x) ∨ c ∈ m := by
  induction m with
  | nil => simpa [Memory.write] using h
  | cons d m ih =>
    obtain ⟨b, y⟩ := d
    simp only [Memory.write] at h
    split at h
    · simpa using h
    · split at h
      · simp only [List.mem_cons] at h ⊢; tauto
      · simp only [List.mem_cons] at h ⊢
        rcases h with h | h
        · exact .inr (.inl h)
        · rcases ih h with h | h <;> simp [h]

/-- A write keeps the canonical form. -/
theorem Memory.write_wf {m : Memory} (a : Nat) (x : Byte) (h : Memory.wf m) : Memory.wf (Memory.write m a x) := by
  induction m with
  | nil => simp [Memory.write, Memory.wf]
  | cons d m ih =>
    obtain ⟨b, y⟩ := d
    simp only [Memory.wf, List.pairwise_cons] at h ih
    simp only [Memory.write]
    split
    · rename_i hab
      refine List.pairwise_cons.2 ⟨?_, List.pairwise_cons.2 h⟩
      intro c hc
      rcases List.mem_cons.1 hc with rfl | hc
      · exact hab
      · exact Nat.lt_trans hab (h.1 c hc)
    · split
      · rename_i hab; subst hab; exact List.pairwise_cons.2 h
      · rename_i h₁ h₂
        refine List.pairwise_cons.2 ⟨?_, ih h.2⟩
        intro c hc
        rcases Memory.mem_write hc with rfl | hc
        · simp only; omega
        · exact h.1 c hc

theorem State.reset_buf_wf : Memory.wf State.reset.buf := by simp [State.reset, Memory.wf]

/-! ### The range of a FILL that begins and ends (R62) -/

theorem Memory.read_withdraw (m : Memory) (base n a : Nat) :
    (m.withdraw base n).read a = if base ≤ a ∧ a < base + n then none else m.read a := by
  induction m with
  | nil => simp [Memory.withdraw, Memory.read]
  | cons c m ih =>
    obtain ⟨b, y⟩ := c
    simp only [Memory.withdraw] at ih
    by_cases hb : base ≤ b ∧ b < base + n
    · have h : (!(decide (base ≤ b) && decide (b < base + n))) = false := by simp [hb]
      rw [Memory.withdraw, List.filter_cons, if_neg (by simp [h]), ih, Memory.read]
      split
      · rfl
      · rename_i ha; rw [if_neg (fun e : a = b => ha (e ▸ hb))]
    · have h : (!(decide (base ≤ b) && decide (b < base + n))) = true := by simp; omega
      rw [Memory.withdraw, List.filter_cons, if_pos h, Memory.read, ih, Memory.read]
      by_cases ha : a = b
      · subst ha; rw [if_pos rfl, if_pos rfl, if_neg hb]
      · rw [if_neg ha, if_neg ha]

theorem Memory.withdraw_wf {m : Memory} (base n : Nat) (h : Memory.wf m) : Memory.wf (m.withdraw base n) := h.filter _

theorem Memory.withdraw_withdraw (m : Memory) (base n : Nat) : (m.withdraw base n).withdraw base n = m.withdraw base n := by
  simp [Memory.withdraw, List.filter_filter]

@[simp] theorem Memory.withdraw_zero (m : Memory) (base : Nat) : m.withdraw base 0 = m := by
  simp only [Memory.withdraw, List.filter_eq_self]
  intro c _
  simp only [Nat.add_zero, Bool.not_eq_true', Bool.and_eq_false_iff, decide_eq_false_iff_not]
  omega

/-- A byte after a store of every byte of `w`: what `w` holds, or else what was there. -/
theorem Memory.read_storeAll (m w : Memory) (a : Nat) : (m.storeAll w).read a = (w.read a).or (m.read a) := by
  induction w with
  | nil => simp [Memory.storeAll, Memory.read]
  | cons c w ih =>
    obtain ⟨b, y⟩ := c
    rw [Memory.storeAll, Memory.read_write, ih, Memory.read]
    split <;> simp

theorem Memory.storeAll_wf {m : Memory} (w : Memory) (h : Memory.wf m) : Memory.wf (m.storeAll w) := by
  induction w with
  | nil => exact h
  | cons c w ih => exact Memory.write_wf _ _ ih

/-- What the end of a `FILL` leaves: its own bytes, no other in its range, and outside it what was there (R61, R62). -/
theorem Memory.read_deliver (m : Memory) (base n : Nat) (w : Memory) (a : Nat) :
    (m.deliver base n w).read a = (w.read a).or (if base ≤ a ∧ a < base + n then none else m.read a) := by
  rw [Memory.deliver, Memory.read_storeAll, Memory.read_withdraw]

theorem Memory.deliver_wf {m : Memory} (base n : Nat) (w : Memory) (h : Memory.wf m) : Memory.wf (m.deliver base n w) :=
  Memory.storeAll_wf w (Memory.withdraw_wf base n h)

/-- Withdrawing a range that a `FILL` is to deliver changes nothing of what it leaves. -/
theorem Memory.deliver_withdraw (m : Memory) (base n : Nat) (w : Memory) :
    (m.withdraw base n).deliver base n w = m.deliver base n w := by
  rw [Memory.deliver, Memory.withdraw_withdraw]; rfl

section
variable (s : State) (base n : Nat) (m : Memory) (v : Fin 4)

@[simp] theorem State.deliver_voices : (s.deliver base n m).voices = s.voices := rfl
@[simp] theorem State.deliver_voice : (s.deliver base n m).voice v = s.voice v := rfl
@[simp] theorem State.deliver_run : (s.deliver base n m).run = s.run := rfl
@[simp] theorem State.deliver_out : (s.deliver base n m).out = s.out := rfl
@[simp] theorem State.deliver_buf : (s.deliver base n m).buf = s.buf.deliver base n m := rfl
@[simp] theorem State.deliver_owned : (s.deliver base n m).owned = s.owned := rfl
@[simp] theorem State.deliver_fill : (s.deliver base n m).fill = s.fill := rfl
@[simp] theorem State.deliver_pending : (s.deliver base n m).pending = s.pending := rfl

end

/-! ### The silence write of a FILL (R155) -/

theorem fillSilence_wf (x : Byte) (base n : Nat) : Memory.wf (fillSilence x base n) := by
  induction n with
  | zero => simp [fillSilence, Memory.wf]
  | succ n ih => exact Memory.write_wf _ _ ih

theorem fillSilence_read (x : Byte) (base n a : Nat) :
    (fillSilence x base n).read a = if base ≤ a ∧ a < base + n then some x else none := by
  induction n with
  | zero => rw [if_neg (by omega)]; rfl
  | succ n ih =>
    rw [fillSilence, Memory.read_write, ih]
    by_cases h : a = base + n
    · rw [if_pos h, if_pos (by omega)]
    · rw [if_neg h]
      by_cases h₂ : base ≤ a ∧ a < base + n
      · rw [if_pos h₂, if_pos (by omega)]
      · rw [if_neg h₂, if_neg (by omega)]

end Sys2Proof.Machine
end

