-- ==== Sys2Proof/Laws/Voice.lean ====
section
/-! SUPPORT. What one sample does to one voice and to the voice file: one lemma per function. -/

namespace Sys2Proof.Machine

/-- `SAMPLE` is defined exactly for `wl > 0` (R113, R114). -/
theorem sample_eq_none_iff (phase wl vol lvl : Word) : sample phase wl vol lvl = none ↔ sext32 wl ≤ 0 := by
  unfold sample; split
  · simp_all
  · split <;> simp_all

/-- Everything `playSample` can answer for an active voice (R150). -/
theorem playSample_eq {V : Voice} (h : V.active = true) :
    playSample V = if sext32 V.wl ≤ 0 then none else some (V.contribution, V.afterSample) := by
  by_cases hw : sext32 V.wl ≤ 0
  · simp [playSample, sample, hw]
  · simp only [playSample, sample, envStep, hw, if_false, Voice.contribution, Voice.afterSample, h, if_true]
    split <;> rename_i hs
    · split at hs <;> simp at hs
    · split at hs <;> simp at hs <;> subst hs <;> split <;> rename_i he <;> split at he <;> simp at he <;> simp_all

@[simp] theorem Voice.afterSample_silent {V : Voice} (h : V.active = false) : V.afterSample = V := by
  simp [Voice.afterSample, h]

@[simp] theorem Voice.contribution_silent {V : Voice} (h : V.active = false) : V.contribution = 0 := by
  simp [Voice.contribution, h]

/-- The fields the mixer never writes (R158). -/
theorem envTransition_frame (V : Voice) :
    (envTransition V).hz = V.hz ∧ (envTransition V).wl = V.wl ∧ (envTransition V).vol = V.vol ∧ (envTransition V).dur = V.dur ∧
    (envTransition V).phase = V.phase ∧ (envTransition V).fx = V.fx ∧ (envTransition V).level = V.level ∧
    (envTransition V).low = V.low := by
  unfold envTransition upTransition downTransition bounceTransition
  cases h : V.fx <;> dsimp only <;> (repeat' split) <;> simp [h]

/-- The fields a sample never writes (R158). -/
theorem Voice.afterSample_frame (V : Voice) :
    V.afterSample.hz = V.hz ∧ V.afterSample.wl = V.wl ∧ V.afterSample.vol = V.vol ∧ V.afterSample.dur = V.dur ∧
    V.afterSample.fx = V.fx ∧ V.afterSample.level = V.level ∧ V.afterSample.low = V.low := by
  unfold Voice.afterSample
  split
  · dsimp only
    split
    · have := envTransition_frame { V with phase := V.phase + 1 }; simp_all
    · simp
  · simp

@[simp] theorem Voice.afterSample_active (V : Voice) : V.afterSample.active = V.active := by
  simp [Voice.active, V.afterSample_frame.1]

/-- The phase after a sample: one more, modulo `2^32`, of an active voice (R26, R150). -/
theorem Voice.afterSample_phase (V : Voice) : V.afterSample.phase = if V.active then V.phase + 1 else V.phase := by
  unfold Voice.afterSample
  split
  · dsimp only
    split
    · exact (envTransition_frame _).2.2.2.2.1
    · rfl
  · rfl

/-! ### The voice file -/

@[simp] theorem State.advanceVoices_nil (s : State) : s.advanceVoices [] = s := rfl

theorem State.advanceVoices_cons (s : State) (v : Fin 4) (vs : List (Fin 4)) :
    s.advanceVoices (v :: vs) = (s.setVoice v (s.voice v).afterSample).advanceVoices vs := rfl

/-- Everything but the voices stands still under `advanceVoices`. -/
theorem State.advanceVoices_frame (vs : List (Fin 4)) (s : State) :
    (s.advanceVoices vs).run = s.run ∧ (s.advanceVoices vs).out = s.out ∧ (s.advanceVoices vs).buf = s.buf ∧
    (s.advanceVoices vs).owned = s.owned ∧ (s.advanceVoices vs).fill = s.fill ∧ (s.advanceVoices vs).pending = s.pending := by
  induction vs generalizing s with
  | nil => simp
  | cons v vs ih => rw [State.advanceVoices_cons]; simpa using ih (s.setVoice v (s.voice v).afterSample)

/-- Each of the voices handled has made its sample, and no other has (R75, R151). -/
theorem State.advanceVoices_voice {vs : List (Fin 4)} (hvs : vs.Nodup) (s : State) (w : Fin 4) :
    (s.advanceVoices vs).voice w = if w ∈ vs then (s.voice w).afterSample else s.voice w := by
  induction vs generalizing s with
  | nil => simp
  | cons v vs ih =>
    obtain ⟨hv, hn⟩ := List.nodup_cons.1 hvs
    rw [State.advanceVoices_cons, ih hn, State.voice_setVoice]
    by_cases h : w = v
    · subst h; simp [hv]
    · simp [h]

/-- A write of `BUF` commutes with the samples. -/
theorem State.advanceVoices_setBuf (vs : List (Fin 4)) (s : State) (m : Memory) :
    (s.setBuf m).advanceVoices vs = (s.advanceVoices vs).setBuf m := by
  induction vs generalizing s with
  | nil => rfl
  | cons v vs ih => exact ih (s.setVoice v (s.voice v).afterSample)

theorem State.mixSum_cons (s : State) (v : Fin 4) (vs : List (Fin 4)) :
    s.mixSum (v :: vs) = (s.voice v).contribution + s.mixSum vs := by simp [State.mixSum]

/-- Writing a voice that is not summed leaves the sum alone (R75). -/
theorem State.mixSum_setVoice (s : State) {v : Fin 4} (V : Voice) {vs : List (Fin 4)} (h : v ∉ vs) :
    (s.setVoice v V).mixSum vs = s.mixSum vs := by
  unfold State.mixSum
  congr 1
  apply List.map_congr_left
  intro w hw
  have : w ≠ v := fun e => h (e ▸ hw)
  rw [State.voice_setVoice_ne _ _ this]

end Sys2Proof.Machine
end

