-- ==== Sys2Proof/Laws/Mixer.lean ====
section
/-! SUPPORT. What `TICK`, `FILL` and the sample steps can answer: each function's one lemma, which later proofs cite. -/

namespace Sys2Proof.Machine

theorem mixByte_zero (b : Byte) : mixByte b 0 = b := by simp [mixByte]

/-- Two additions modulo `2^8` are one (R152). -/
theorem mixByte_mixByte (b : Byte) (x y : Int) : mixByte (mixByte b x) y = mixByte b (x + y) := by
  simp [mixByte, BitVec.ofInt_add, BitVec.add_assoc]

theorem voiceOrder_nodup : voiceOrder.Nodup := by decide

theorem mem_voiceOrder (v : Fin 4) : v ∈ voiceOrder := by fin_cases v <;> simp [voiceOrder]

/-- The first voice of `vs` on which `SAMPLE` is undefined, seen after a sample of a voice that is not among them. -/
theorem find_lacksWavelength_setVoice (s : State) {v : Fin 4} (V : Voice) {vs : List (Fin 4)} (h : v ∉ vs) :
    vs.find? (fun w => ((s.setVoice v V).voice w).lacksWavelength) = vs.find? (fun w => (s.voice w).lacksWavelength) := by
  induction vs with
  | nil => simp only [List.find?_nil]
  | cons u vs ih =>
    simp only [List.mem_cons, not_or] at h
    have hu : u ≠ v := fun e => h.1 e.symm
    simp only [List.find?_cons, State.voice_setVoice_ne s V hu, ih h.2]

/-- Everything `tickVoices` can answer (R150 to R153): the fault of the first active voice without a wavelength, or the wrapped
sum and each voice after its sample. -/
theorem tickVoices_eq {vs : List (Fin 4)} (hvs : vs.Nodup) (acc : Byte) (s : State) :
    tickVoices vs acc s =
      match vs.find? (fun v => (s.voice v).lacksWavelength) with
      | some v => .error (.undefinedWavelength v)
      | none => .ok (mixByte acc (s.mixSum vs), s.advanceVoices vs) := by
  induction vs generalizing acc s with
  | nil => simp [tickVoices, State.mixSum, mixByte_zero]
  | cons v vs ih =>
    obtain ⟨hv, hn⟩ := List.nodup_cons.1 hvs
    rw [tickVoices, List.find?_cons, State.mixSum_cons, State.advanceVoices_cons]
    cases ha : (s.voice v).active with
    | false => simp [Voice.lacksWavelength, ha, ih hn]
    | true =>
      rw [if_pos rfl, playSample_eq ha]
      by_cases hw : sext32 (s.voice v).wl ≤ 0
      · simp [Voice.lacksWavelength, ha, hw]
      · have hl : (s.voice v).lacksWavelength = false := by simp [Voice.lacksWavelength, hw]
        simp only [hl, hw, if_false]
        rw [ih hn, mixByte_mixByte, State.mixSum_setVoice s _ hv, find_lacksWavelength_setVoice s _ hv]

/-- Everything the loop body of `TICK` can answer (R150). -/
theorem tickSample_eq (p : Params) (s : State) :
    tickSample p s =
      match voiceOrder.find? (fun v => (s.voice v).lacksWavelength) with
      | some v => .error (.undefinedWavelength v)
      | none => .ok ((s.advanceVoices voiceOrder).setOut (mixByte p.silence (s.mixSum voiceOrder))) := by
  rw [tickSample, tickVoices_eq voiceOrder_nodup]
  cases voiceOrder.find? (fun v => (s.voice v).lacksWavelength) <;> rfl

/-- What the voices of one sample of a `FILL` do (R155), the byte at `a` being stored: as for `TICK`, with the sum added into that byte
and every other byte as before. -/
theorem fillVoices_spec (a : Nat) {vs : List (Fin 4)} (hvs : vs.Nodup) (m : Memory) (s : State) {b : Byte} (hb : m.read a = some b) :
    (∀ v, vs.find? (fun v => (s.voice v).lacksWavelength) = some v → fillVoices a vs m s = .error (.undefinedWavelength v)) ∧
    (vs.find? (fun v => (s.voice v).lacksWavelength) = none →
      ∃ m' : Memory, fillVoices a vs m s = .ok (m', s.advanceVoices vs) ∧ m'.read a = some (mixByte b (s.mixSum vs)) ∧
        (∀ c, c ≠ a → m'.read c = m.read c) ∧ (Memory.wf m → Memory.wf m')) := by
  induction vs generalizing m s b with
  | nil => exact ⟨by simp, fun _ => ⟨m, rfl, by simpa [State.mixSum, mixByte_zero] using hb, fun _ _ => rfl, id⟩⟩
  | cons v vs ih =>
    obtain ⟨hv, hn⟩ := List.nodup_cons.1 hvs
    rw [fillVoices, List.find?_cons, State.mixSum_cons, State.advanceVoices_cons]
    cases ha : (s.voice v).active with
    | false =>
      have hl : (s.voice v).lacksWavelength = false := by simp [Voice.lacksWavelength, ha]
      simpa [hl, ha] using ih hn m s hb
    | true =>
      rw [if_pos rfl, playSample_eq ha]
      by_cases hw : sext32 (s.voice v).wl ≤ 0
      · have hl : (s.voice v).lacksWavelength = true := by simp [Voice.lacksWavelength, ha, hw]
        simp [hl, hw]
      · have hl : (s.voice v).lacksWavelength = false := by simp [Voice.lacksWavelength, hw]
        simp only [hl, hw, if_false, hb]
        obtain ⟨herr, hok⟩ := ih hn (m.write a (mixByte b (s.voice v).contribution)) (s.setVoice v (s.voice v).afterSample)
          (b := mixByte b (s.voice v).contribution) (by simp)
        have hf := find_lacksWavelength_setVoice s (s.voice v).afterSample hv
        refine ⟨fun w hw' => herr w (hf.trans hw'), fun hnone => ?_⟩
        obtain ⟨m', h₁, h₂, h₃, h₄⟩ := hok (hf.trans hnone)
        refine ⟨m', h₁, ?_, fun c hc => ?_, fun hwf => h₄ (Memory.write_wf _ _ hwf)⟩
        · rw [h₂, mixByte_mixByte, State.mixSum_setVoice _ _ hv]
        · rw [h₃ c hc, Memory.read_write_ne _ _ hc]

/-- Everything a sample of a `FILL` can have done where it answers: one sample of each voice, and a change of the byte at `a` alone. -/
theorem fillVoices_next {a : Nat} {vs : List (Fin 4)} {m m' : Memory} {s t : State} (h : fillVoices a vs m s = .ok (m', t)) :
    t = s.advanceVoices vs ∧ (∀ c, c ≠ a → m'.read c = m.read c) ∧ ((m.read a).isSome = true → (m'.read a).isSome = true) ∧
    (Memory.wf m → Memory.wf m') := by
  induction vs generalizing m s with
  | nil =>
    simp only [fillVoices, Except.ok.injEq, Prod.mk.injEq] at h
    obtain ⟨rfl, rfl⟩ := h
    exact ⟨rfl, fun _ _ => rfl, id, id⟩
  | cons v vs ih =>
    rw [fillVoices] at h
    rw [State.advanceVoices_cons]
    cases ha : (s.voice v).active with
    | false =>
      rw [ha, if_neg (by simp)] at h
      rw [Voice.afterSample_silent ha, State.setVoice_voice]
      exact ih h
    | true =>
      rw [ha, if_pos rfl, playSample_eq ha] at h
      split at h
      · simp at h
      · rename_i x V hp
        split at hp <;> simp only [reduceCtorEq, Option.some.injEq, Prod.mk.injEq] at hp
        obtain ⟨rfl, rfl⟩ := hp
        split at h
        · simp at h
        · obtain ⟨h₁, h₂, h₃, h₄⟩ := ih h
          refine ⟨h₁, fun c hc => by rw [h₂ c hc, Memory.read_write_ne _ _ hc], fun _ => h₃ (by simp), fun hwf => ?_⟩
          exact h₄ (Memory.write_wf _ _ hwf)

/-- The condition under which a sample is defined (R114, R232): no active voice lacks a wavelength. -/
theorem find_lacksWavelength_eq_none (s : State) :
    voiceOrder.find? (fun v => (s.voice v).lacksWavelength) = none ↔ s.wavelengthsDefined := by
  simp only [List.find?_eq_none, State.wavelengthsDefined, Voice.lacksWavelength, Bool.and_eq_true, decide_eq_true_eq, not_and]
  constructor
  · intro h v ha; have := h v (mem_voiceOrder v) ha; omega
  · intro h v _ ha; have := h v ha; omega

/-- A sample leaves every active voice its wavelength (R158). -/
theorem State.advanceVoices_wavelengthsDefined {s : State} (h : s.wavelengthsDefined) :
    (s.advanceVoices voiceOrder).wavelengthsDefined := by
  intro v hv
  rw [State.advanceVoices_voice voiceOrder_nodup, if_pos (mem_voiceOrder v)] at hv ⊢
  rw [(s.voice v).afterSample_frame.2.1]
  exact h v (by simpa using hv)

end Sys2Proof.Machine
end

