-- ==== Sys2Proof/Laws/Fill.lean ====
section
/-! SUPPORT. What the sample steps of a `FILL` and a whole `FILL` can answer (R155, R157, R61). -/

namespace Sys2Proof.Machine

theorem State.advanceTimes_frame (s : State) (n : Nat) :
    (s.advanceTimes n).run = s.run ∧ (s.advanceTimes n).out = s.out ∧ (s.advanceTimes n).buf = s.buf ∧
    (s.advanceTimes n).owned = s.owned ∧ (s.advanceTimes n).fill = s.fill ∧ (s.advanceTimes n).pending = s.pending := by
  induction n with
  | zero => simp [State.advanceTimes]
  | succ n ih =>
    have := State.advanceVoices_frame voiceOrder (s.advanceTimes n)
    simp only [State.advanceTimes]
    simp_all

theorem State.advanceTimes_setBuf (s : State) (m : Memory) (n : Nat) :
    (s.setBuf m).advanceTimes n = (s.advanceTimes n).setBuf m := by
  induction n with
  | zero => rfl
  | succ n ih => rw [State.advanceTimes, ih, State.advanceVoices_setBuf]; rfl

theorem State.mixSum_setBuf (s : State) (m : Memory) (vs : List (Fin 4)) : (s.setBuf m).mixSum vs = s.mixSum vs := rfl

theorem State.wavelengthsDefined_setBuf (s : State) (m : Memory) :
    (s.setBuf m).wavelengthsDefined ↔ s.wavelengthsDefined := Iff.rfl

theorem State.advanceTimes_wavelengthsDefined {s : State} (h : s.wavelengthsDefined) (n : Nat) :
    (s.advanceTimes n).wavelengthsDefined := by
  induction n with
  | zero => exact h
  | succ n ih => exact State.advanceVoices_wavelengthsDefined ih

/-- Each voice after `n` samples is that voice's own `n` samples (R75). -/
theorem State.advanceTimes_voice (s : State) (n : Nat) (v : Fin 4) :
    (s.advanceTimes n).voice v = Voice.afterSample^[n] (s.voice v) := by
  induction n with
  | zero => rfl
  | succ n ih =>
    rw [State.advanceTimes, State.advanceVoices_voice voiceOrder_nodup, if_pos (mem_voiceOrder v), ih,
      Function.iterate_succ_apply']

/-- A sample step into a stored byte, where every active voice has a wavelength (R155). -/
theorem fillSample_ok {a : Nat} {m : Memory} {s : State} {b : Byte} (hd : s.wavelengthsDefined) (hb : m.read a = some b) :
    ∃ m' : Memory, fillSample a m s = .ok (m', s.advanceVoices voiceOrder) ∧ m'.read a = some (mixByte b (s.mixSum voiceOrder)) ∧
      (∀ c, c ≠ a → m'.read c = m.read c) ∧ (Memory.wf m → Memory.wf m') :=
  (fillVoices_spec a voiceOrder_nodup m s hb).2 ((find_lacksWavelength_eq_none s).2 hd)

/-- The first `n` sample steps of a `FILL` whose bytes are stored, `f k` being what the `k`-th holds: byte `base + k` gets the sum
of the `k`-th sample added, and no other byte changes (R155, R61). -/
theorem fillSamples_ok (base n : Nat) {m : Memory} {s : State} {f : Nat → Byte} (hd : s.wavelengthsDefined)
    (hb : ∀ k, k < n → m.read (base + k) = some (f k)) :
    ∃ m' : Memory, fillSamples base n m s = .ok (m', s.advanceTimes n) ∧
      (∀ k, k < n → m'.read (base + k) = some (mixByte (f k) ((s.advanceTimes k).mixSum voiceOrder))) ∧
      (∀ c, (c < base ∨ base + n ≤ c) → m'.read c = m.read c) ∧ (Memory.wf m → Memory.wf m') := by
  induction n with
  | zero => exact ⟨m, rfl, by simp, fun _ _ => rfl, id⟩
  | succ n ih =>
    obtain ⟨m₁, h₁, h₂, h₃, h₄⟩ := ih fun k hk => hb k (by omega)
    have hread : m₁.read (base + n) = some (f n) := by rw [h₃ _ (by omega)]; exact hb n (by omega)
    obtain ⟨m₂, g₁, g₂, g₃, g₄⟩ := fillSample_ok (State.advanceTimes_wavelengthsDefined hd n) hread
    refine ⟨m₂, ?_, ?_, ?_, fun hwf => g₄ (h₄ hwf)⟩
    · rw [fillSamples, h₁]; exact g₁
    · intro k hk
      by_cases hkn : k = n
      · subst hkn; exact g₂
      · rw [g₃ _ (by omega)]; exact h₂ k (by omega)
    · intro c hc
      rw [g₃ c (by omega)]; exact h₃ c (by omega)

/-- The sample steps of a whole `FILL` where every active voice has a wavelength (R155, R157): each voice has made `n` samples, byte
`base + k` holds the `k`-th output sample, and no byte outside the range is stored (R61). -/
theorem fillSamples_silence_ok (x : Byte) (base n : Nat) {s : State} (hd : s.wavelengthsDefined) :
    ∃ m : Memory, fillSamples base n (fillSilence x base n) s = .ok (m, s.advanceTimes n) ∧
      (∀ k, k < n → m.read (base + k) = some (mixByte x ((s.advanceTimes k).mixSum voiceOrder))) ∧
      (∀ c, (c < base ∨ base + n ≤ c) → m.read c = none) ∧ Memory.wf m := by
  obtain ⟨m, h₁, h₂, h₃, h₄⟩ := fillSamples_ok base n (m := fillSilence x base n) (f := fun _ => x) hd
    (fun k hk => by rw [fillSilence_read, if_pos (by omega)])
  exact ⟨m, h₁, h₂, fun c hc => by rw [h₃ c hc, fillSilence_read, if_neg (by omega)], h₄ (fillSilence_wf x base n)⟩

/-- What the end of a `FILL` leaves in `BUF`, its bytes being stored in its range and nowhere else (R61, R62). -/
theorem State.read_deliver {s : State} {base n : Nat} {m : Memory} {f : Nat → Byte} (h₁ : ∀ k, k < n → m.read (base + k) = some (f k))
    (h₂ : ∀ c, (c < base ∨ base + n ≤ c) → m.read c = none) :
    (∀ k, k < n → (s.deliver base n m).buf.read (base + k) = some (f k)) ∧
    (∀ c, (c < base ∨ base + n ≤ c) → (s.deliver base n m).buf.read c = s.buf.read c) := by
  simp only [State.deliver, State.setBuf_buf, Memory.read_deliver]
  refine ⟨fun k hk => by rw [h₁ k hk]; rfl, fun c hc => ?_⟩
  rw [h₂ c hc, if_neg (by omega)]; rfl

/-- A whole `FILL` where every active voice has a wavelength (R155, R157): each voice has made `n` samples, byte `base + k` holds the
`k`-th output sample, and no other byte changes (R61). -/
theorem fillBuffer_ok (p : Params) (base n : Nat) {s : State} (hd : s.wavelengthsDefined) :
    ∃ t : State, fillBuffer p base n s = .ok t ∧ (∃ m, t = (s.advanceTimes n).setBuf m) ∧
      (∀ k, k < n → t.buf.read (base + k) = some (mixByte p.silence ((s.advanceTimes k).mixSum voiceOrder))) ∧
      (∀ c, (c < base ∨ base + n ≤ c) → t.buf.read c = s.buf.read c) ∧ (Memory.wf s.buf → Memory.wf t.buf) := by
  obtain ⟨m, h₁, h₂, h₃, -⟩ := fillSamples_silence_ok p.silence base n hd
  obtain ⟨g₁, g₂⟩ := State.read_deliver (s := s.advanceTimes n) h₂ h₃
  have hbuf : (s.advanceTimes n).buf = s.buf := (State.advanceTimes_frame s n).2.2.1
  refine ⟨(s.advanceTimes n).deliver base n m, by rw [fillBuffer, h₁], ⟨_, rfl⟩, g₁, fun c hc => by rw [g₂ c hc, hbuf], fun hwf => ?_⟩
  exact Memory.deliver_wf base n m (hbuf ▸ hwf)

/-- A sample step into a stored byte where some active voice has no wavelength: the fault of the first such voice (R233, R235). -/
theorem fillSample_error {a : Nat} {m : Memory} {s : State} {b : Byte} {v : Fin 4} (hb : m.read a = some b)
    (hv : voiceOrder.find? (fun v => (s.voice v).lacksWavelength) = some v) :
    fillSample a m s = .error (.undefinedWavelength v) :=
  (fillVoices_spec a voiceOrder_nodup m s hb).1 v hv

/-- A `FILL` of at least one byte where some active voice has no wavelength faults, at its first sample (R233). -/
theorem fillBuffer_error (p : Params) (base n : Nat) {s : State} {v : Fin 4} (hn : 0 < n)
    (hv : voiceOrder.find? (fun v => (s.voice v).lacksWavelength) = some v) :
    fillBuffer p base n s = .error (.undefinedWavelength v) := by
  obtain ⟨n, rfl⟩ : ∃ k, n = k + 1 := ⟨n - 1, by omega⟩
  suffices h : ∀ (m : Memory) (k : Nat), (∃ b, m.read base = some b) → fillSamples base (k + 1) m s = .error (.undefinedWavelength v) by
    rw [fillBuffer, h _ n ⟨p.silence, by rw [fillSilence_read, if_pos (by omega)]⟩]
  intro m k ⟨b, hb⟩
  induction k with
  | zero => simpa [fillSamples] using fillSample_error hb hv
  | succ k ih => rw [fillSamples, ih]

/-- Everything a sample step of the `FILL` in progress can do where it answers (R62, R69): one sample of each voice, then either the
`FILL` goes on with its bytes still its own, or it ends and they become visible. -/
theorem stepFill_next {job : FillJob} {s t : State} (h : stepFill job s = .next t) :
    ∃ m : Memory, (∀ c, c ≠ job.base + job.index → m.read c = job.bytes.read c) ∧
      ((job.bytes.read (job.base + job.index)).isSome = true → (m.read (job.base + job.index)).isSome = true) ∧
      (Memory.wf job.bytes → Memory.wf m) ∧
      ((job.index + 1 < job.length ∧
          t = (s.advanceVoices voiceOrder).setFill (some { job with index := job.index + 1, bytes := m })) ∨
        (job.length ≤ job.index + 1 ∧ t = ((s.advanceVoices voiceOrder).deliver job.base job.length m).setFill none)) := by
  simp only [stepFill] at h
  split at h
  · simp at h
  · rename_i m u hu
    obtain ⟨rfl, h₁, h₂, h₃⟩ := fillVoices_next hu
    refine ⟨m, h₁, h₂, h₃, ?_⟩
    simp only [FillJob.advance, Host.Outcome.next.injEq] at h
    split at h
    · rename_i hlt; exact .inl ⟨hlt, h.symm⟩
    · rename_i hge; exact .inr ⟨by omega, h.symm⟩

end Sys2Proof.Machine
end

