-- ==== Sys2Proof/Laws/Operands.lean ====
section
/-! SUPPORT. What the operand forms answer (30_encoding.md R86, R87; 43_voice_control.md R170). -/

namespace Sys2Proof.Machine

/-- A voice operand names a voice exactly when it is that voice's number (R87). -/
theorem voiceIndex_eq_some_iff (voice : Int) (v : Fin 4) : voiceIndex voice = some v ↔ voice = (v.val : Int) := by
  unfold voiceIndex
  fin_cases v <;> simp
  all_goals repeat' split
  all_goals simp_all

/-- A voice operand names no voice exactly when it is outside 0..3 (R170). -/
theorem voiceIndex_eq_none_iff (voice : Int) : voiceIndex voice = none ↔ voice < 0 ∨ 3 < voice := by
  unfold voiceIndex
  (repeat' split) <;> simp_all <;> omega

/-- An effect operand is a kind exactly when it is that kind's code (R86). -/
theorem effectOfCode_eq_some_iff (effect : Int) (k : EffectKind) : effectOfCode effect = some k ↔ effect = k.code := by
  unfold effectOfCode
  cases k <;> simp [EffectKind.code]
  all_goals repeat' split
  all_goals simp_all

/-- An effect operand is no kind exactly when it is outside 0..4 (R86). -/
theorem effectOfCode_eq_none_iff (effect : Int) : effectOfCode effect = none ↔ effect < 0 ∨ 4 < effect := by
  unfold effectOfCode
  (repeat' split) <;> simp_all <;> omega

/-- Validation accepts exactly the operands R170 accepts, and addresses the voice and the kind they name. -/
theorem playTarget_eq_some_iff (voice durationMs volume effect : Int) (v : Fin 4) (k : EffectKind) :
    playTarget voice durationMs volume effect = some (v, k) ↔
      0 ≤ volume ∧ volume ≤ 10 ∧ 0 ≤ durationMs ∧ voice = (v.val : Int) ∧ effect = k.code := by
  rw [← voiceIndex_eq_some_iff, ← effectOfCode_eq_some_iff]
  unfold playTarget
  split
  · simp; omega
  · have h₁ : 0 ≤ volume := by omega
    have h₂ : volume ≤ 10 := by omega
    have h₃ : 0 ≤ durationMs := by omega
    cases voiceIndex voice <;> cases effectOfCode effect <;> simp [h₁, h₂, h₃]

/-- Validation rejects exactly the operands R170 rejects. -/
theorem playTarget_eq_none_iff (voice durationMs volume effect : Int) :
    playTarget voice durationMs volume effect = none ↔
      voice < 0 ∨ 3 < voice ∨ volume < 0 ∨ 10 < volume ∨ effect < 0 ∨ 4 < effect ∨ durationMs < 0 := by
  have h₁ := voiceIndex_eq_none_iff voice
  have h₂ := effectOfCode_eq_none_iff effect
  unfold playTarget
  split
  · simp; omega
  · cases hv : voiceIndex voice <;> cases he : effectOfCode effect <;> simp_all <;> omega

end Sys2Proof.Machine
end

