-- ==== Sys2Proof/Laws/PerInstr.lean ====
section
/-! SUPPORT. Facts about every operation as syntax, one lemma per constructor. -/

namespace Sys2Proof.Laws

/-- The opcode map's split of the numbers (30_encoding.md R83): host opcodes are below `0x10`, audio opcodes from `0x10`, and the
encoder writes the opcode into `W0`. -/
def OpcodeMap.Statement (i : Instr) : Prop := (encode i).w0 = i.opcode ∧ portOfOpcode (encode i).w0 = i.port

theorem OpcodeMap.play (voice hz durationMs volume effect effectLevel effectLow : Int) :
    OpcodeMap.Statement (.play voice hz durationMs volume effect effectLevel effectLow) := by
  exact ⟨rfl, by simp [encode, Instr.operandWords, Instr.opcode, Instr.port, portOfOpcode]⟩

theorem OpcodeMap.stop (voice : Int) : OpcodeMap.Statement (.stop voice) := ⟨rfl, by simp [encode, Instr.operandWords, Instr.opcode, Instr.port, portOfOpcode]⟩

theorem OpcodeMap.resume : OpcodeMap.Statement .resume := ⟨rfl, by simp [encode, Instr.operandWords, Instr.opcode, Instr.port, portOfOpcode]⟩

theorem OpcodeMap.pause : OpcodeMap.Statement .pause := ⟨rfl, by simp [encode, Instr.operandWords, Instr.opcode, Instr.port, portOfOpcode]⟩

theorem OpcodeMap.fill (base byteLength : Nat) : OpcodeMap.Statement (.fill base byteLength) := ⟨rfl, by simp [encode, Instr.operandWords, Instr.opcode, Instr.port, portOfOpcode]⟩

theorem OpcodeMap.tick : OpcodeMap.Statement .tick := ⟨rfl, by simp [encode, Instr.operandWords, Instr.opcode, Instr.port, portOfOpcode]⟩

end Sys2Proof.Laws
end

