-- ==== Sys2Proof/Laws/Step.lean ====
section
/-! SUPPORT. What one step of the machine can do, said once (20_memory.md R68, R69). -/

namespace Sys2Proof.Machine

/-- A next state of a step is one of four things: the same state (nothing is issued), the next sample step of the `FILL` in progress,
the start of a `FILL` that a host operation cuts into, or one operation. -/
theorem step_cases {s t : State} (h : step s = .next t) :
    (s.turn = .idle ∧ t = s) ∨
    (∃ job, s.turn = .sample job ∧ stepFill job s = .next t) ∨
    (∃ issue rest cut i, s.turn = .operation issue rest cut ∧ decodePacket issue.port issue.packet = .ok i ∧
      ((∃ base n, splitFill cut i = some (base, n) ∧ openFill Config.params base n (s.setPending rest) = .next t) ∨
       (splitFill cut i = none ∧ exec i (s.setPending rest) = .next t))) := by
  unfold step at h
  split at h
  · rename_i ht; simp only [Host.Outcome.next.injEq] at h; exact .inl ⟨ht, h.symm⟩
  · rename_i job ht; exact .inr (.inl ⟨job, ht, h⟩)
  · rename_i issue rest cut ht
    split at h
    · simp at h
    · rename_i i hi
      refine .inr (.inr ⟨issue, rest, cut, i, ht, hi, ?_⟩)
      split at h
      · rename_i base n hs; exact .inl ⟨base, n, hs, h⟩
      · rename_i hs; exact .inr ⟨hs, h⟩

/-- An operation's turn takes the first pending issue. -/
theorem turn_operation {s : State} {issue : Issue} {rest : List Issue} {cut : Bool} (h : s.turn = .operation issue rest cut) :
    s.pending = issue :: rest := by
  unfold State.turn at h
  split at h <;> (try split at h) <;> simp_all

/-- A sample step's turn is that of the `FILL` in progress, while the block runs. -/
theorem turn_sample {s : State} {job : FillJob} (h : s.turn = .sample job) : s.fill = some job ∧ s.run = true := by
  unfold State.turn at h
  split at h <;> (try split at h) <;> simp_all [Issue.entersFill]

@[simp] theorem State.assertReset_voice (s : State) (v : Fin 4) : s.assertReset.voice v = Voice.reset := State.reset_voice v
@[simp] theorem State.assertReset_run (s : State) : s.assertReset.run = false := rfl
@[simp] theorem State.assertReset_out (s : State) : s.assertReset.out = none := rfl
@[simp] theorem State.assertReset_buf (s : State) : s.assertReset.buf = s.buf := rfl
@[simp] theorem State.assertReset_owned (s : State) : s.assertReset.owned = s.owned := rfl
@[simp] theorem State.assertReset_fill (s : State) : s.assertReset.fill = none := rfl
@[simp] theorem State.assertReset_pending (s : State) : s.assertReset.pending = s.pending := rfl

end Sys2Proof.Machine
end

