-- ==== Sys2Proof/Machine/Assembler.lean ====
section
/-! DEFINITION. The assembler syntax of 30_encoding.md R90 to R92. It writes packets down; nothing here is called by `exec` or
`step`. -/

namespace Sys2Proof.Machine

/-- A line without its comment (R90: `;` starts a comment). -/
def dropComment (cs : List Char) : List Char := cs.takeWhile (fun c => c != ';')

/-- Blanks at both ends removed. -/
def trimBlanks (cs : List Char) : List Char :=
  ((cs.dropWhile (fun c => c == ' ')).reverse.dropWhile (fun c => c == ' ')).reverse

/-- A line cut at its commas. -/
def splitCommas : List Char → List (List Char)
  | [] => [[]]
  | c :: cs =>
    match splitCommas cs with
    | [] => [[c]]
    | field :: fields => if c = ',' then [] :: field :: fields else (c :: field) :: fields

/-- The value of a decimal or hexadecimal digit. -/
def digitValue (radix : Nat) (c : Char) : Option Nat :=
  let n := c.toNat
  let d := if 48 ≤ n ∧ n ≤ 57 then n - 48 else if 97 ≤ n ∧ n ≤ 102 then n - 87 else if 65 ≤ n ∧ n ≤ 70 then n - 55 else radix
  if d < radix then some d else none

/-- The digits of a number after the value `acc`. -/
def readDigits (radix : Nat) : Nat → List Char → Option Nat
  | acc, [] => some acc
  | acc, c :: cs =>
    match digitValue radix c with
    | none => none
    | some d => readDigits radix (acc * radix + d) cs

/-- One or more digits. -/
def readNat (radix : Nat) (cs : List Char) : Option Nat := if cs.isEmpty then none else readDigits radix 0 cs

/-- A number (R90): decimal, optionally signed, or `0x` hexadecimal. -/
def readNumber (cs : List Char) : Option Int :=
  match cs with
  | '0' :: 'x' :: ds => (readNat 16 ds).map (fun n => (n : Int))
  | '-' :: ds => (readNat 10 ds).map (fun n => -(n : Int))
  | '+' :: ds => (readNat 10 ds).map (fun n => (n : Int))
  | ds => (readNat 10 ds).map (fun n => (n : Int))

/-- An effect operand (R90): a name or a number. -/
def readEffect (cs : List Char) : Option Int :=
  if cs = ['N', 'O', 'N', 'E'] then some (EffectKind.code .none)
  else if cs = ['F', 'I', 'X', 'E', 'D'] then some (EffectKind.code .fixed)
  else if cs = ['U', 'P'] then some (EffectKind.code .up)
  else if cs = ['D', 'O', 'W', 'N'] then some (EffectKind.code .down)
  else if cs = ['B', 'O', 'U', 'N', 'C', 'E'] then some (EffectKind.code .bounce)
  else readNumber cs

/-- The operation of a mnemonic and its operands (R90, R91). -/
def assembleFields (mnemonic : List Char) (operands : List (List Char)) : Option Instr :=
  match operands with
  | [a, b, c, d, e, f, g] =>
    if mnemonic = ['P', 'L', 'A', 'Y'] then
      match readNumber a, readNumber b, readNumber c, readNumber d, readEffect e, readNumber f, readNumber g with
      | some a, some b, some c, some d, some e, some f, some g => some (.play a b c d e f g)
      | _, _, _, _, _, _, _ => none
    else none
  | [a, b] =>
    if mnemonic = ['F', 'I', 'L', 'L'] then
      match readNumber a, readNumber b with
      | some a, some b => if 0 ≤ a ∧ 0 ≤ b then some (.fill a.toNat b.toNat) else none
      | _, _ => none
    else none
  | [a] =>
    if mnemonic = ['S', 'T', 'O', 'P'] then (readNumber a).map .stop
    else if mnemonic = ['R', 'E', 'S', 'T'] then (readNumber a).map Instr.rest
    else if a ≠ [] then none
    else if mnemonic = ['R', 'E', 'S', 'U', 'M', 'E'] then some .resume
    else if mnemonic = ['P', 'A', 'U', 'S', 'E'] then some .pause
    else if mnemonic = ['T', 'I', 'C', 'K'] then some .tick
    else none
  | _ => none

/-- Assemble one line (R90). An operand that does not fit its word is refused. -/
def assembleLine (line : List Char) : Option Instr :=
  let text := trimBlanks (dropComment line)
  let operands := (splitCommas (text.dropWhile (fun c => c != ' '))).map trimBlanks
  match assembleFields (text.takeWhile (fun c => c != ' ')) operands with
  | none => none
  | some i => if i.wellFormed then some i else none

/-- A line of a listing (R92): `H:` or `A:`, then an operation. -/
def assembleListingLine (line : List Char) : Option Issue :=
  match line with
  | 'H' :: ':' :: rest => (assembleLine rest).map (fun i => { port := .host, packet := encode i, cutIn := none })
  | 'A' :: ':' :: rest => (assembleLine rest).map (fun i => { port := .audio, packet := encode i, cutIn := none })
  | _ => none

/-- A listing: its lines in order, the total order in which the operations take effect (R92). -/
def assembleListing : List (List Char) → Option (List Issue)
  | [] => some []
  | line :: lines =>
    match assembleListingLine line, assembleListing lines with
    | some i, some rest => some (i :: rest)
    | _, _ => none

end Sys2Proof.Machine
end

