-- ==== Sys2Proof/Tests/Slice0.lean ====
section
/-! SUPPORT. The tests: ill-formed terms, packets written out from 30_encoding.md and 95_test_vectors.md V7, single operations against
the vectors of 95_test_vectors.md, and for every obligation with hypotheses a state and operands that meet them. -/

open Sys2Proof Sys2Proof.Machine

namespace Tests

/-! ### Helpers -/

/-- The parameters of the vectors (95_test_vectors.md part 0): `SR = 8000`, `SILENCE = 0x80`. -/
def params : Params := { sampleRate := 8000, silence := 0x80#8 }

/-- A voice in the order the vectors write one. -/
def voice (hz wl vol dur phase : Word) (fx : EffectKind) (level low cur : Word) (dir : Direction) : Voice :=
  { hz := hz, wl := wl, vol := vol, dur := dur, phase := phase, fx := fx, level := level, low := low, cur := cur, dir := dir }

/-- A running block whose voice 0 is `V`. -/
def playing (V : Voice) : State := (State.reset.setRun true).setVoice 0 V

/-- A tone of 1000 Hz at `SR = 8000`. -/
def tone : Voice := voice 1000 8 30 0 0 .none 0 0 0 .descending

/-- A field of the next state. -/
def after {α : Type} (r : Result) (f : State → α) : Option α :=
  match r with
  | .next t => some (f t)
  | .fault _ => none
  | .refused _ => none

/-- An answer as data that can be compared. -/
def answer (r : Result) : State ⊕ Fault ⊕ Refusal :=
  match r with
  | .next t => .inl t
  | .fault f => .inr (.inl f)
  | .refused e => .inr (.inr e)

/-- The `n` bytes of `BUF` from `a`. -/
def bytesAt (s : State) (a n : Nat) : List (Option Byte) := (List.range n).map (fun k => s.buf.read (a + k))

/-- A packet with the words of a list, the rest 0. -/
def packet (w0 : Word) (w1 : Word := 0) (w2 : Word := 0) (w3 : Word := 0) (w4 : Word := 0) (w5 : Word := 0) (w6 : Word := 0)
    (w7 : Word := 0) : Packet := ⟨w0, w1, w2, w3, w4, w5, w6, w7⟩

/-! ### WellFormed: an ill-formed term for each check -/

theorem test_wellFormed_bounds :
    (Instr.play (-2147483648) 2147483647 0 0 0 0 0).wellFormed = true ∧ (Instr.fill 4294967295 0).wellFormed = true := by decide
theorem test_illFormed_play_voice : (Instr.play 2147483648 0 0 0 0 0 0).wellFormed = false := by decide
theorem test_illFormed_play_hz : (Instr.play 0 (-2147483649) 0 0 0 0 0).wellFormed = false := by decide
theorem test_illFormed_play_durationMs : (Instr.play 0 0 2147483648 0 0 0 0).wellFormed = false := by decide
theorem test_illFormed_play_volume : (Instr.play 0 0 0 2147483648 0 0 0).wellFormed = false := by decide
theorem test_illFormed_play_effect : (Instr.play 0 0 0 0 (-2147483649) 0 0).wellFormed = false := by decide
theorem test_illFormed_play_effectLevel : (Instr.play 0 0 0 0 0 2147483648 0).wellFormed = false := by decide
theorem test_illFormed_play_effectLow : (Instr.play 0 0 0 0 0 0 2147483648).wellFormed = false := by decide
theorem test_illFormed_stop_voice : (Instr.stop 2147483648).wellFormed = false := by decide
theorem test_illFormed_fill_base : (Instr.fill 4294967296 0).wellFormed = false := by decide
theorem test_illFormed_fill_byteLength : (Instr.fill 0 4294967296).wellFormed = false := by decide

/-! ### Decode: 95_test_vectors.md V7 -/

theorem test_decode_play :
    decodePacket .host (packet 0x00000001 3 0x00000FA0 0 1 4 0xFFFFFFFE 0xFFFFFFFF) = .ok (.play 3 4000 0 1 4 (-2) (-1)) ∧
    decodePacket .host (packet 0x00000001 0xFFFFFFFF 0x000001B8 0 5) = .ok (.play (-1) 440 0 5 0 0 0) := by decide
theorem test_decode_stop :
    decodePacket .host (packet 0x00000002 0x00000003 0xDEADBEEF) = .ok (.stop 3) := by decide
theorem test_decode_resume : decodePacket .host (packet 0x00000003) = .ok .resume := by decide
theorem test_decode_pause : decodePacket .host (packet 0x00000004) = .ok .pause := by decide
theorem test_decode_fill :
    decodePacket .audio (packet 0x00000010 0x00001000 0x00000010) = .ok (.fill 4096 16) ∧
    decodePacket .audio (packet 0x00000010 0xFFFFFFF0 0x00000008) = .ok (.fill 4294967280 8) := by decide
theorem test_decode_tick : decodePacket .audio (packet 0x00000011 1 2 3 4 5 6 7) = .ok .tick := by decide
theorem test_decode_reserved :
    decodePacket .host (packet 0x00000000) = .error .unknownOpcode ∧
    decodePacket .host (packet 0x00000005) = .error .unknownOpcode ∧
    decodePacket .host (packet 0x00000012) = .error .unknownOpcode ∧
    decodePacket .host (packet 0x000000FF) = .error .unknownOpcode ∧
    decodePacket .host (packet 0x00000101) = .error .upperBitsNotZero ∧
    decodePacket .host (packet 0x80000001) = .error .upperBitsNotZero ∧
    decodePacket .host (packet 0x00000011) = .error .wrongPort ∧
    decodePacket .host (packet 0x00000010) = .error .wrongPort ∧
    decodePacket .audio (packet 0x00000001) = .error .wrongPort ∧
    decodePacket .audio (packet 0x00000004) = .error .wrongPort := by decide

/-- R89's serialised form of `STOP 3`, and of `PLAY 0, 440, -1, 5, ..` (V7). -/
theorem test_decode_bytes :
    decodeBytes .host ([0x02, 0, 0, 0, 0x03, 0, 0, 0] ++ List.replicate 24 0) = .ok (.stop 3) ∧
    decodeBytes .host ([0x01, 0, 0, 0, 0, 0, 0, 0, 0xB8, 0x01, 0, 0, 0xFF, 0xFF, 0xFF, 0xFF, 0x05, 0, 0, 0] ++ List.replicate 12 0)
      = .ok (.play 0 440 (-1) 5 0 0 0) ∧
    decodeBytes .host (List.replicate 31 0) = .error .notThirtyTwoBytes ∧
    decodeBytes .host (List.replicate 33 0) = .error .notThirtyTwoBytes := by decide

/-- The rows of the opcode table, each by its `match` bits. -/
theorem test_table_words :
    [0x01, 0x02, 0x03, 0x04, 0x10, 0x11].map (decodeTableWord 32) =
      [some (.play 0 0 0 0 0 0 0), some (.stop 0), some .resume, some .pause, some (.fill 0 0), some .tick] := by decide

/-- The encoder writes the packet of `STOP 3` (V7). -/
theorem test_encode_stop : encode (.stop 3) = packet 0x00000002 0x00000003 := by decide

/-! ### Operations: 95_test_vectors.md part 2 -/

/-- V1, `SR = 8000` and `SR = 44100`. -/
theorem test_wavelength :
    [0, 1, 7, 440, 640, 3200, 3201, 16000, 16001].map (wavelength 8000) = [0, 8000, 1143, 18, 13, 3, 2, 1, 0] ∧
    [440, 262, 88200, 88201].map (wavelength 44100) = [100, 168, 1, 0] := by decide

/-- V2: an odd wavelength. -/
theorem test_sample_oddWavelength :
    [0, 1, 2, 4, 5].map (fun p => sample p 5 30 0) = [some 30, some 30, some (-30), some (-30), some 30] := by decide

/-- V2: the gate at the top of the phase, a negative level, no wavelength. -/
theorem test_sample_corners :
    sample 0xFFFFFFFF 8 30 1 = some 0 ∧ sample 0xFFFFFFFE 8 30 1 = some (-30) ∧ sample 7 8 60 (BitVec.ofInt 32 (-2)) = some (-60) ∧
    sample 0 0 30 0 = none := by decide

/-- V3: the turns of UP and DOWN. -/
theorem test_envelope_ramps :
    (envTransition (voice 0 0 0 0 0 .up 8 0 3 .descending)).cur = 2 ∧
    (envTransition (voice 0 0 0 0 0 .up 8 0 2 .descending)).cur = 8 ∧
    (envTransition (voice 0 0 0 0 0 .down 8 0 6 .descending)).cur = 7 ∧
    (envTransition (voice 0 0 0 0 0 .down 8 0 7 .descending)).cur = 1 := by decide

/-- V3: the turns of BOUNCE, the case where both tests hold, and a negative level. -/
theorem test_envelope_bounce :
    envTransition (voice 0 0 0 0 0 .bounce 16 8 8 .descending) = voice 0 0 0 0 0 .bounce 16 8 10 .ascending ∧
    envTransition (voice 0 0 0 0 0 .bounce 16 8 16 .ascending) = voice 0 0 0 0 0 .bounce 16 8 14 .descending ∧
    envTransition (voice 0 0 0 0 0 .bounce 8 16 9 .ascending) = voice 0 0 0 0 0 .bounce 8 16 18 .ascending ∧
    envTransition (voice 0 0 0 0 0 .bounce 0 0 2 .ascending) = voice 0 0 0 0 0 .bounce 0 0 0xFFFFFFFE .descending := by decide

/-- V4: the fields stored, with negative effect arguments. -/
theorem test_play_loads :
    after (play params 3 4000 0 1 4 (-2) (-1) State.reset) (fun t => (t.voice 3, t.run)) =
      some (voice 4000 2 6 0 0 .bounce 16 8 16 .descending, true) := by decide

/-- V4: validation comes before the domain test, and is silent. -/
theorem test_play_validation :
    answer (play params 4 (-5) 0 5 0 0 0 State.reset) = .inl State.reset ∧
    answer (play params 0 (-5) 0 5 0 0 0 State.reset) = .inr (.inr .playNegativeFrequency) ∧
    answer (play params 0 440 0 5 2 268435456 0 State.reset) = .inr (.inr .playEffectOutOfDomain) := by decide

/-- V5. -/
theorem test_stop :
    after (execStop 0 (playing (voice 1000 8 30 200 8 .none 0 0 0 .descending))) (fun t => (t.voice 0, t.run)) =
      some (voice 0 8 30 200 8 .none 0 0 0 .descending, true) := by decide
theorem test_stop_outOfRange :
    answer (execStop 4 (playing tone)) = .inl (playing tone) ∧ answer (execStop (-1) (playing tone)) = .inl (playing tone) := by decide
theorem test_resume : answer (execResume State.reset) = .inl (State.reset.setRun true) := by decide
theorem test_pause : after (execPause (playing tone)) (fun t => (t.voice 0, t.run)) = some (tone, false) := by decide

/-- V6, phase wrap: the first two lines, one `TICK` each. -/
theorem test_tick_phaseWrap :
    after (tick params (playing (voice 2667 3 30 0 0xFFFFFFFE .up 8 0 5 .descending))) (fun t => (t.out, t.voice 0)) =
      some (some 0x62, voice 2667 3 30 0 0xFFFFFFFF .up 8 0 4 .descending) ∧
    after (tick params (playing (voice 2667 3 30 0 0xFFFFFFFF .up 8 0 4 .descending))) (fun t => (t.out, t.voice 0)) =
      some (some 0x80, voice 2667 3 30 0 0 .up 8 0 3 .descending) := by decide

/-- V6: the fault, and the refusal while paused. -/
theorem test_tick_stops :
    answer (tick params ((State.reset.setRun true).setVoice 2 (voice 16001 0 30 0 0 .none 0 0 0 .descending))) =
      .inr (.inl (.undefinedWavelength 2)) ∧
    answer (tick params State.reset) = .inr (.inr .audioWhilePaused) := by decide

/-- V6: a wavelength of 5. -/
theorem test_fill :
    after (fill params 0x1000 10 (playing (voice 1600 5 30 0 0 .none 0 0 0 .descending))) (fun t => (bytesAt t 0x1000 10, (t.voice 0).phase)) =
      some ([0x9E, 0x9E, 0x62, 0x62, 0x62, 0x9E, 0x9E, 0x62, 0x62, 0x62].map some, 10) := by decide

/-- V6: four voices at full volume wrap. -/
theorem test_fill_wraps :
    after (fill params 0 8 { playing tone with voices := Vector.replicate 4 (voice 1000 8 60 0 0 .none 0 0 0 .descending) })
      (fun t => bytesAt t 0 8) = some ([0x70, 0x70, 0x70, 0x70, 0x90, 0x90, 0x90, 0x90].map some) := by decide

/-! ### The step: placed words, the order of the agents, a `FILL` in progress -/

/-- A placed `RESUME` is the next operation and nothing is left of it. -/
theorem test_step_placedResume :
    (step (State.reset.withFetchWord 32 0x03)) = .next (State.reset.setRun true) := rfl

/-- A placed `TICK` runs from reset and drives `SILENCE` (R159). -/
theorem test_step_placedTick :
    step (State.reset.withFetchWord 32 0x11) = .next ((State.reset.setRun true).setOut Config.silence) := rfl

/-- R154: a `TICK` the audio agent issues while the block is paused is refused. -/
theorem test_step_pausedTick :
    step (State.reset.setPending [⟨.audio, packet 0x00000011, none⟩]) = .refused .audioWhilePaused := rfl

/-- R85: a reserved packet is refused. -/
theorem test_step_reserved :
    step (State.reset.setPending [⟨.host, packet 0x00000005, none⟩]) = .refused (.reservedPacket .unknownOpcode) := rfl

/-- A `FILL` of two bytes under way, one sample taken, and a `STOP 0` that takes its place there. -/
def midFill (cutIn : Nat) : State :=
  { playing tone with
    fill := some ⟨0, 2, 1, [(0, 0x9E), (1, 0x80)]⟩
    pending := [⟨.host, packet 0x00000002, some cutIn⟩] }

/-- P6, R69: a host operation whose place is reached comes before the next sample step, and one whose place is not comes after. R62: the
bytes of the `FILL` become visible when it ends. -/
theorem test_step_fillInProgress :
    after (step (midFill 1)) (fun t => ((t.voice 0).hz, t.fill, bytesAt t 0 2)) =
      some (0, some ⟨0, 2, 1, [(0, 0x9E), (1, 0x80)]⟩, [none, none]) ∧
    after (step (midFill 2)) (fun t => ((t.voice 0).hz, t.fill, bytesAt t 0 2)) =
      some (1000, none, [some 0x9E, some 0x9E]) := by decide

/-! ### The host software and the assembler: 95_test_vectors.md S7, 30_encoding.md R90 to R92 -/

/-- S7. -/
theorem test_playNotes :
    playNotes 100 5 ['C'] =
      [.issue (.play 0 65 100 5 0 0 0), .waitQuantum, .waitQuantum, .issue (.stop 0)] ∧
    playNotes 100 5 ['3', 'C'] =
      [.issue (.play 0 262 100 5 0 0 0), .waitQuantum, .waitQuantum, .issue (.stop 0)] ∧
    playNotes 100 5 [' '] =
      [.issue (.play 0 0 100 5 0 0 0), .waitQuantum, .waitQuantum, .issue (.stop 0)] ∧
    playNotes 49 5 ['C'] = [] := by decide

/-- S7: two hold characters give three increments, and unknown characters are skipped. -/
theorem test_playNotes_holds :
    (playNotes 100 5 ['x', '?', 'C', '-', '-']).length = 8 ∧
    (playNotes 100 5 ['x', '?', 'C', '-', '-']).head? = some (.issue (.play 0 65 300 5 0 0 0)) := by decide

/-- R69, R202: the packets of a timed tone, the `STOP` falling inside a `FILL` after three of its sample steps. -/
theorem test_hostIssues :
    hostIssues [none, some 3] (playTone 3 440 50 5 0 0 0) =
      [⟨.host, packet 0x01 3 440 50 5, none⟩, ⟨.host, packet 0x02 3, some 3⟩] := by decide

/-- The listing line of P5 (part 3 of 95_test_vectors.md) assembles to the packet written beside it. -/
theorem test_assemble :
    assembleListingLine "H: PLAY 3, 4000, 0, 1, BOUNCE, 2, 1 ; start".toList =
      some ⟨.host, packet 0x00000001 3 0x00000FA0 0 1 4 2 1, none⟩ ∧
    assembleListingLine "A: FILL 0x1000, 16".toList = some ⟨.audio, packet 0x00000010 0x00001000 0x00000010, none⟩ ∧
    assembleLine "REST 2".toList = some (.play 2 0 0 0 0 0 0) ∧ assembleLine "TICK".toList = some .tick ∧
    assembleLine "FILL -1, 4".toList = none := by decide

/-! ### Witnesses: for each obligation with hypotheses, a state and operands that meet them all -/

/-- Every voice an active square wave, the volumes adding to 120 (R256 allows 127). -/
def chord : State := { playing tone with voices := Vector.replicate 4 tone }

theorem witness_DecodeEncodeRoundTrip :
    (Instr.play (-2147483648) 2147483647 0 10 4 (-1) 1).wellFormed = true ∧ (Instr.stop (-2147483648)).wellFormed = true ∧
    Instr.resume.wellFormed = true ∧ Instr.pause.wellFormed = true ∧ (Instr.fill 4294967295 4294967295).wellFormed = true ∧
    Instr.tick.wellFormed = true := by decide

theorem witness_IgnoredWordsAreNotRead :
    (packet 0x03).w0 = (packet 0x03 9 9).w0 ∧ (packet 0x04).w0 = (packet 0x04 9 9).w0 ∧ (packet 0x11).w0 = (packet 0x11 9 9).w0 ∧
    (packet 0x02 3).w0 = (packet 0x02 3 9).w0 ∧ (packet 0x02 3).w1 = (packet 0x02 3 9).w1 ∧
    (packet 0x10 1 2).w0 = (packet 0x10 1 2 9).w0 ∧ (packet 0x10 1 2).w1 = (packet 0x10 1 2 9).w1 ∧
    (packet 0x10 1 2).w2 = (packet 0x10 1 2 9).w2 := by decide

/-- A turn for each clause: `W0 = 256`, opcode 5 on the host port, opcode 4 on the audio port, and a PLAY with voice 4. -/
theorem witness_ReservedPacketIsRefused :
    (State.reset.setPending [⟨.host, packet 256, none⟩]).turn = .operation ⟨.host, packet 256, none⟩ [] false ∧
    (State.reset.setPending [⟨.host, packet 5, none⟩]).turn = .operation ⟨.host, packet 5, none⟩ [] false ∧
    (packet 5).w0.toNat ∉ [0x01, 0x02, 0x03, 0x04] ∧
    (State.reset.setPending [⟨.audio, packet 4, none⟩]).turn = .operation ⟨.audio, packet 4, none⟩ [] false ∧
    (packet 4).w0.toNat ∉ [0x10, 0x11] ∧
    (State.reset.setPending [⟨.host, packet 1 4, none⟩]).turn = .operation ⟨.host, packet 1 4, none⟩ [] false ∧
    (packet 1 4).w0.toNat = 1 ∧ 3 < (packet 1 4).w1.toInt := by decide

/-- Voice 4 and duration -1 are rejected; voice 3, volume 10, effect 4 and the greatest duration are accepted. -/
theorem witness_PlayIsValidatedSilently :
    (3 < (4 : Int) ∨ (-1 : Int) < 0) ∧
    ¬((3 : Int) < 0 ∨ (3 : Int) < 3 ∨ (10 : Int) < 0 ∨ (10 : Int) < 10 ∨ (4 : Int) < 0 ∨ (4 : Int) < 4 ∨ (2147483647 : Int) < 0) ∧
    IsInt32 2147483647 ∧ (0 : Int) ≤ 0 ∧ (-268435455 : Int).natAbs < 2 ^ 28 ∧ (268435455 : Int).natAbs < 2 ^ 28 := by decide

/-- An accepted PLAY at the edge of the domain (V4's last line), and one just outside it. -/
theorem witness_PlayLoadsTheVoice :
    (Instr.play 3 0 2147483647 10 4 268435455 (-268435455)).wellFormed = true ∧ (3 : Int) = (3 : Fin 4).val ∧
    (4 : Int) = EffectKind.bounce.code ∧ (268435455 : Int).natAbs < 2 ^ 28 ∧ (-268435455 : Int).natAbs < 2 ^ 28 ∧
    (Instr.play 3 0 2147483647 10 4 268435456 0).wellFormed = true ∧ 2 ^ 28 ≤ (268435456 : Int).natAbs ∧
    (packet 1).w0 = 0x00000001#32 := by decide

theorem witness_PlayOutsideDomainIsRefused :
    (0 : Int) ≤ 10 ∧ (10 : Int) ≤ 10 ∧ (-1 : Int) < 0 ∧ (0 : Int) ≤ 0 ∧ 2 ^ 28 ≤ (-2147483648 : Int).natAbs := by decide

theorem witness_HostOperationsAreIdempotent :
    (Instr.stop 0).port = .host ∧
    exec (.stop 0) (playing tone) = .next ((playing tone).setVoice 0 { tone with hz := 0 }) := ⟨rfl, rfl⟩

theorem witness_WavelengthIsNearestInteger : 0 < 16001 ∧ 2 ≤ wavelength 8000 5333 ∧ wavelength 8000 16001 = 0 := by decide

/-- `3 * 5333 <= 2 * 8000`: the highest frequency with a wavelength of 2 at `SR = 8000`. -/
theorem witness_ToneStartsAtPeak :
    params.Legal ∧ (Instr.play (0 : Fin 4).val 5333 0 5 4 2 1).wellFormed = true ∧ 3 * (5333 : Int) ≤ 2 * (params.sampleRate : Int) ∧
    (after (play params (0 : Fin 4).val 5333 0 5 4 2 1 State.reset) (fun _ => ())).isSome = true := by decide

theorem witness_StopSilencesOneVoice : (-1 : Int) < 0 ∧ 3 < (4 : Int) ∧ (0 : Int) = (0 : Fin 4).val ∧ (3 : Int) = (3 : Fin 4).val := by
  decide

theorem witness_PausedAudioOperationsAreRefused : State.reset.run = false := by decide

theorem witness_SampleIsTheGatedSquare : (0 : Word).toInt ≤ 0 ∧ 0 < (1 : Word).toInt := by decide

theorem witness_GateAlternatesEveryLevelSamples : 0 < 1 ∧ (0 : Int) ≤ 0 := by decide

theorem witness_SquareWaveDutyCycle : 0 < 1 ∧ (0 : Int) < 1 := by decide

/-- A voice at a boundary for each effect kind and each of BOUNCE's three cases, one between boundaries, one with no wavelength. -/
theorem witness_EnvStepFollowsItsTransitions :
    let fall : Voice := voice 1 4 6 0 8 .bounce 16 8 8 .descending
    let rise : Voice := voice 1 4 6 0 8 .bounce 16 8 16 .ascending
    let mid : Voice := voice 1 4 6 0 8 .bounce 16 8 15 .ascending
    fall.low.toInt + 2 ≤ 2147483647 ∧ -2147483648 ≤ fall.level.toInt - 2 ∧ 0 < fall.wl.toInt ∧
    (fall.phase.toNat : Int) % fall.wl.toInt = 0 ∧ fall.cur.toInt + fall.dir.toInt < fall.low.toInt ∧
    rise.low.toInt ≤ rise.cur.toInt + rise.dir.toInt ∧ rise.level.toInt < rise.cur.toInt + rise.dir.toInt ∧
    mid.low.toInt ≤ mid.cur.toInt + mid.dir.toInt ∧ mid.cur.toInt + mid.dir.toInt ≤ mid.level.toInt ∧
    ((voice 1 4 6 0 9 .up 8 0 8 .descending).phase.toNat : Int) % (voice 1 4 6 0 9 .up 8 0 8 .descending).wl.toInt ≠ 0 ∧
    (voice 1 0 6 0 8 .down 8 0 8 .descending).wl.toInt ≤ 0 := by decide

theorem witness_UpEnvelopeCycle :
    (voice 1 4 6 0 0 .up 8 0 8 .descending).fx = .up ∧ 8 ≤ (voice 1 4 6 0 0 .up 8 0 8 .descending).level.toInt ∧
    (voice 1 4 6 0 0 .up 8 0 8 .descending).cur = (voice 1 4 6 0 0 .up 8 0 8 .descending).level ∧ ((6 : Nat) : Int) < 8 - 1 := by decide

theorem witness_DownEnvelopeCycle :
    (voice 1 4 6 0 0 .down 8 0 8 .descending).fx = .down ∧ 8 ≤ (voice 1 4 6 0 0 .down 8 0 8 .descending).level.toInt ∧
    (voice 1 4 6 0 0 .down 8 0 8 .descending).cur = (voice 1 4 6 0 0 .down 8 0 8 .descending).level ∧ ((6 : Nat) : Int) < 8 - 1 := by
  decide

theorem witness_BounceEnvelopeCycle :
    let V : Voice := voice 1 4 6 0 0 .bounce 16 8 10 .ascending
    V.fx = .bounce ∧ 0 ≤ V.low.toInt ∧ V.level.toInt = V.low.toInt + (8 : Nat) ∧ V.cur.toInt = V.low.toInt + 2 ∧ V.dir = .ascending ∧
    6 ≤ 8 - 2 := by decide

theorem witness_InvertedBounceAlternates :
    let V : Voice := voice 1 4 6 0 0 .bounce 8 8 8 .descending
    V.fx = .bounce ∧ 0 ≤ V.level.toInt ∧ V.level.toInt ≤ V.low.toInt ∧ V.low.toInt + 3 ≤ 2147483647 ∧ V.cur = V.level ∧
    V.dir = .descending := by decide

/-- One state with a wavelength for each active voice, and one without. -/
theorem witness_TickProducesOneMixedSample :
    chord.run = true ∧ (∀ v, (chord.voice v).hz ≠ 0 → 0 < (chord.voice v).wl.toInt) ∧ (packet 0x11).w0 = 0x00000011#32 ∧
    (playing { tone with wl := 0 }).run = true ∧
    ¬(∀ v, ((playing { tone with wl := 0 }).voice v).hz ≠ 0 → 0 < ((playing { tone with wl := 0 }).voice v).wl.toInt) := by decide

theorem witness_UndefinedWavelengthFaultsAtTheFirstVoice :
    let s : State := chord.setVoice 2 { tone with wl := 0 }
    s.run = true ∧ (s.voice 2).hz ≠ 0 ∧ (s.voice 2).wl.toInt ≤ 0 ∧ (∀ w, w < 2 → (s.voice w).hz ≠ 0 → 0 < (s.voice w).wl.toInt) ∧
    s.ownsRange 0 1 = true := by decide

/-- A TICK of the chord answers a next state. -/
theorem chord_ticks : ∃ t, exec .tick chord = .next t := ⟨_, rfl⟩

theorem witness_MixIsTheWrappedSum :
    (∀ v, 0 ≤ (chord.voice v).vol.toInt ∧ (chord.voice v).vol.toInt ≤ 60) ∧ ∃ t, exec .tick chord = .next t :=
  ⟨by decide, chord_ticks⟩

theorem witness_QuietMixDoesNotWrap :
    (∀ v, 0 ≤ (chord.voice v).vol.toInt) ∧
    (([0, 1, 2, 3] : List (Fin 4)).map (fun v => if (chord.voice v).active then (chord.voice v).vol.toInt else 0)).sum ≤ 127 ∧
    ∃ t, exec .tick chord = .next t := ⟨by decide, by decide, chord_ticks⟩

theorem witness_VoiceOrderDoesNotMatter :
    [3, 1, 0, 2].Perm ([0, 1, 2, 3] : List (Fin 4)) ∧ (∀ v, (chord.voice v).hz ≠ 0 → 0 < (chord.voice v).wl.toInt) := by decide

theorem witness_VoicesAreIndependent :
    (∃ t, exec .tick chord = .next t) ∧ (∃ t, exec .tick (chord.setVoice 1 Voice.reset) = .next t) ∧ (0 : Fin 4) ≠ 1 :=
  ⟨chord_ticks, ⟨_, rfl⟩, by decide⟩

theorem witness_FillWritesExactlyItsRange :
    chord.run = true ∧ chord.ownsRange 4294967295 4294967295 = true ∧ (∀ v, (chord.voice v).hz ≠ 0 → 0 < (chord.voice v).wl.toInt) ∧
    0 < 4294967295 := by decide

/-- A range one byte longer than the region the audio agent owns. -/
theorem witness_UnownedBufferIsRefused :
    let s : State := { chord with owned := [⟨16, 8⟩] }
    s.run = true ∧ 0 < 9 ∧ (∀ r ∈ s.owned, 16 < r.base ∨ r.base + r.size < 16 + 9) := by decide

/-- A FILL that completes, and one that faults. -/
theorem witness_FillIsTicks :
    (∃ t, exec (.fill 0 2) chord = .next t) ∧
    exec (.fill 0 2) (playing { tone with wl := 0 }) = .fault (.undefinedWavelength 0) := ⟨⟨_, rfl⟩, rfl⟩

theorem witness_EmptyFillChangesNothing : chord.run = true := by decide

theorem witness_SilentBlockMixesSilence :
    (State.reset.setRun true).run = true ∧ (∀ v, ((State.reset.setRun true).voice v).hz = 0) ∧
    (State.reset.setRun true).ownsRange 0 4 = true := by decide

theorem witness_MixerKeepsTheLoadedFields :
    Instr.tick.port = .audio ∧ (∃ t, exec .tick chord = .next t) ∧ (Instr.stop 0).port = .host ∧
    (∃ t, exec (.stop 0) chord = .next t ∧ (t.voice 0).hz ≠ (chord.voice 0).hz) := ⟨rfl, chord_ticks, rfl, _, rfl, by decide⟩

theorem witness_OnlyOwnersWriteVoices :
    (∃ t, exec (.stop 0) chord = .next t ∧ t.voice 0 ≠ chord.voice 0) ∧ (∃ t, exec .pause chord = .next t ∧ t.run ≠ chord.run) ∧
    (∃ t, exec (.fill 0 1) chord = .next t ∧ t.buf ≠ chord.buf) ∧ (∃ t, exec .tick chord = .next t ∧ t.out ≠ chord.out) :=
  ⟨⟨_, rfl, by decide⟩, ⟨_, rfl, by decide⟩, ⟨_, rfl, fun h => Bool.false_ne_true (congrArg List.isEmpty h)⟩,
    ⟨_, rfl, by simp [chord, playing, State.reset, State.setRun, State.setVoice]⟩⟩

theorem witness_PhaseIsResetOnlyAtToneStart :
    (∃ t, exec .tick chord = .next t) ∧ (∃ t, exec (.fill 0 2) chord = .next t) ∧ (∃ t, exec (.play 3 0 0 10 4 0 0) chord = .next t) ∧
    (∃ t, exec (.play 4 0 0 10 4 0 0) chord = .next t) ∧ (∃ t, exec .resume chord = .next t) :=
  ⟨chord_ticks, ⟨_, rfl⟩, ⟨_, rfl⟩, ⟨_, rfl⟩, ⟨_, rfl⟩⟩

/-- The reset state meets the invariant whatever is issued. -/
theorem reset_inv (l : List Issue) : (State.reset.setPending l).Inv := by
  refine ⟨fun v => ?_, State.reset_buf_wf, trivial⟩
  rw [State.setPending_voice, State.reset_voice]
  exact ⟨by decide, by decide, ⟨by decide, Int.natCast_nonneg _⟩, ⟨0, by decide, by decide⟩, by decide, ⟨0, by decide, by decide⟩,
    ⟨0, by decide, by decide⟩, rfl⟩

theorem witness_ResetDiscardsTheOperationInProgress : Memory.wf (midFill 1).buf ∧ (midFill 1).assertReset.fill = none := by decide

/-- The `FILL` under way of `midFill` is well formed, with a byte of another `FILL` beside its range. -/
theorem midFill_ok (x : Byte) : FillJob.Ok [(7, x)] ⟨0, 2, 1, [(0, 0x9E), (1, 0x80)]⟩ := by
  refine ⟨by decide, by decide, fun a ha => ?_, by decide, fun k hk => ?_⟩
  · have ha : 2 ≤ a := by simpa using ha
    rw [Memory.read, if_neg (by omega), Memory.read, if_neg (by omega), Memory.read]
  · have hk : k < 2 := hk
    simp only [Memory.read, Nat.zero_add]
    rw [if_neg (by omega)]

/-- A `FILL` that opens over written bytes, a sample step that is not the last and one that is, and a `FILL` that reset discards. -/
theorem witness_OnlyFinalContentsAreVisible :
    (∃ u, openFill Config.params 0 2 (chord.setBuf [(0, 1)]) = .next u) ∧
    FillJob.Ok [] ⟨0, 2, 0, [(0, 0x80), (1, 0x80)]⟩ ∧ (∃ t, stepFill ⟨0, 2, 0, [(0, 0x80), (1, 0x80)]⟩ chord = .next t) ∧ 0 + 1 < 2 ∧
    FillJob.Ok [(7, 0x44)] ⟨0, 2, 1, [(0, 0x9E), (1, 0x80)]⟩ ∧
    (∃ t, stepFill ⟨0, 2, 1, [(0, 0x9E), (1, 0x80)]⟩ (chord.setBuf [(7, 0x44)]) = .next t) ∧ 1 + 1 = 2 ∧
    (midFill 1).fill = some ⟨0, 2, 1, [(0, 0x9E), (1, 0x80)]⟩ := by
  refine ⟨⟨_, rfl⟩, ⟨by decide, by decide, fun a ha => ?_, by decide, by decide⟩, ⟨_, rfl⟩, by decide, midFill_ok 0x44, ⟨_, rfl⟩,
    by decide, rfl⟩
  have ha : 2 ≤ a := by simpa using ha
  rw [Memory.read, if_neg (by omega), Memory.read, if_neg (by omega), Memory.read]

theorem witness_StepKeepsInvariant :
    (State.reset.setPending [⟨.host, packet 0x03, none⟩]).Inv ∧
    step (State.reset.setPending [⟨.host, packet 0x03, none⟩]) = .next (State.reset.setRun true) := ⟨reset_inv _, rfl⟩

/-- The last sample step of a `FILL`, with a byte of an earlier `FILL` beside its range. -/
theorem witness_StepKeepsBufferCanonical :
    let s : State := (midFill 2).setBuf [(7, 0x44)]
    step s = .next { playing { tone with phase := 1 } with
      buf := [(0, 0x9E), (1, 0x9E), (7, 0x44)], pending := (midFill 2).pending } ∧
    Memory.wf s.buf ∧ s.jobOk ∧ (s.buf.read 7).isSome = true := ⟨rfl, by decide, midFill_ok 0x44, by decide⟩

/-- The highest frequency the ceiling allows at every `SAMPLE_RATE`: 2 Hz. -/
theorem witness_SoftwareUnderTheCeilingNeverFaults :
    (State.reset.setPending [⟨.host, packet 0x01 0 2 0 5, none⟩]).Safe := by
  refine ⟨reset_inv _, fun v h => ?_, fun i hi op hop => ?_⟩
  · rw [State.setPending_voice, State.reset_voice] at h
    exact absurd h (by decide)
  · have hi' : i = ⟨.host, packet 0x01 0 2 0 5, none⟩ := by simpa [State.setPending] using hi
    subst hi'
    have : op = .play 0 2 0 5 0 0 0 := by
      have e : decodePacket .host (packet 0x01 0 2 0 5) = .ok (.play 0 2 0 5 0 0 0) := by decide
      exact (Except.ok.inj (e.symm.trans hop)).symm
    subst this
    show (2 : Int) ≤ 2 * ((Config.sampleRatePred.val + 1 : Nat) : Int)
    omega

/-- A state for each clause: nothing to do; a FILL in progress with nothing issued, running and paused; a FILL in progress whose next issue
is the audio agent's, is no operation, or comes later; an operation; a FILL that is cut into; a host operation whose place in a FILL is
reached; the block paused inside a FILL. -/
theorem witness_StepRunsTheNextOperation :
    (State.reset.fill = none ∧ State.reset.pending = []) ∧
    (((midFill 1).setPending []).pending = [] ∧ ((midFill 1).setPending []).fill.isSome = true ∧
      ((midFill 1).setPending []).run = true ∧ (((midFill 1).setPending []).setRun false).run = false) ∧
    (((midFill 1).setPending [⟨.audio, packet 0xFF, none⟩]).pending = [⟨.audio, packet 0xFF, none⟩] ∧
      decodePacket .audio (packet 0xFF) = .error .unknownOpcode ∧ (midFill 2).run = true ∧ 1 < 2) ∧
    (decodePacket .host (packet 0x03) = .ok .resume ∧ nextCuts [⟨.audio, packet 0x11, none⟩] = false) ∧
    (decodePacket .audio (packet 0x10 0 2) = .ok (.fill 0 2) ∧ nextCuts [⟨.host, packet 0x02, some 1⟩] = true) ∧
    ((midFill 1).pending = [⟨.host, packet 0x02, some 1⟩] ∧ decodePacket .host (packet 0x02) = .ok (.stop 0)) ∧
    ((midFill 2).setRun false).run = false := by decide

theorem witness_PlacedWordIsRunNext : decodeTableWord 32 0x11 = some .tick ∧ decodeTableWord 64 0x0000000300000002 = some (.stop 3) := by
  decide

theorem witness_OpenedFillEqualsWholeFill :
    chord.fill = none ∧ nextCuts chord.pending = false ∧ 0 < 2 ∧ (∀ v, (chord.voice v).hz ≠ 0 → 0 < (chord.voice v).wl.toInt) ∧
    ∃ u, openFill Config.params 0 2 chord = .next u := ⟨by decide, by decide, by decide, by decide, _, rfl⟩

/-- P6's shape: a FILL of two bytes into which a `STOP 0` falls after the first. -/
theorem witness_HostOperationFallsBetweenSamples :
    let i : Issue := ⟨.host, packet 0x02, some 1⟩
    let s : State := chord.setPending [i]
    s.fill = none ∧ s.pending = [i] ∧ i.port = .host ∧ i.cutIn = some 1 ∧ 0 < 1 ∧ 1 < 2 ∧
    decodePacket i.port i.packet = .ok (.stop 0) ∧
    ∃ a b c u, exec (.fill 0 1) (s.setPending []) = .next a ∧ exec (.stop 0) a = .next b ∧ b.run = true ∧
      exec (.fill (0 + 1) (2 - 1)) b = .next c ∧ openFill Config.params 0 2 s = .next u :=
  ⟨rfl, rfl, rfl, rfl, by decide, by decide, by decide, _, _, _, _, rfl, rfl, rfl, rfl, rfl⟩

theorem witness_PlayToneWaitsWholeQuanta :
    (4 : Int) < 5 ∧ (0 : Int) ≤ 3 ∧ (3 : Int) ≤ 3 ∧ (0 : Int) ≤ 10 ∧ (10 : Int) ≤ 10 ∧ (0 : Int) ≤ 4 ∧ (4 : Int) ≤ 4 ∧ (0 : Int) < 1 ∧
    playTone 3 440 1 10 4 0 0 = [.issue (.play 3 440 1 10 4 0 0), .waitQuantum, .issue (.stop 3)] ∧
    playTone 3 440 0 10 4 0 0 = [.issue (.play 3 440 0 10 4 0 0)] ∧ playTone 3 440 1 10 5 0 0 = [] := by decide

theorem witness_NotesPlayOnVoiceZero :
    (49 : Int) < 50 ∧ HostAction.issue (.play 0 65 50 5 0 0 0) ∈ playNotesWith Config.octaveTable 50 5 ['C'] := by decide

theorem witness_NoteScanIsNotCutOff : ['C'].length ≤ 1 ∧ ['C'].length ≤ 7 := by decide

theorem witness_UnknownCharacterIsSkipped :
    'x' ∉ ['^', 'v', '1', '2', '3', '4', 'A', 'B', 'C', 'D', 'E', 'F', 'G', ' '] := by decide

end Tests
end

section
/-! SUPPORT. The integers the words of a voice hold (00_scope.md R9): what reading back a stored operand gives. -/

namespace Sys2Proof

theorem isInt32_sext32 (w : Word) : IsInt32 (sext32 w) := by
  have h₁ := BitVec.le_toInt w
  have h₂ := BitVec.toInt_lt (x := w)
  simp only [sext32]
  omega

/-- An integer of the `int32` range is read back as it was stored. -/
theorem sext32_wordOfInt {x : Int} (h : IsInt32 x) : sext32 (wordOfInt x) = x :=
  BitVec.toInt_ofInt_eq_self (by decide) (by omega) (by omega)

theorem sext32_ofNat {n : Nat} (h : n < 2147483648) : sext32 (BitVec.ofNat 32 n) = (n : Int) := by
  rw [← BitVec.ofInt_natCast]
  exact sext32_wordOfInt (by omega)

namespace Machine

/-- `volume * 6` of a validated volume (R170, R176). -/
theorem sext32_scaleVolume {volume : Int} (h₁ : 0 ≤ volume) (h₂ : volume ≤ 10) :
    sext32 (scaleVolume volume) = volume * 6 :=
  sext32_wordOfInt (by omega)

/-- `abs(x) * 8` of an effect argument in the domain (R177, R180). -/
theorem sext32_scaleEffect {x : Int} (h : x.natAbs < 268435456) : sext32 (scaleEffect x) = 8 * (x.natAbs : Int) :=
  (sext32_wordOfInt (by omega)).trans (Int.mul_comm _ _)

/-- No wavelength is longer than that of 1 Hz (R172). -/
theorem wavelength_le_rate (rate hz : Nat) : wavelength rate hz ≤ rate := by
  have h := Nat.div_le_self (rate * 10) hz
  unfold wavelength
  split <;> omega

/-- `SAMPLE_RATE * 10 < 2^31` (R6). -/
theorem sampleRate_mul_ten_lt : Config.sampleRate * 10 < 2147483648 := by
  have h := Config.sampleRatePred.isLt
  unfold Config.sampleRate
  omega

theorem effectInDomain_eq_true_iff (effectLevel effectLow : Int) :
    effectInDomain effectLevel effectLow = true ↔ effectLevel.natAbs < 268435456 ∧ effectLow.natAbs < 268435456 := by
  simp [effectInDomain]

end Machine
end Sys2Proof
end

section
/-! SUPPORT. What the decoder guarantees of an operation (30_encoding.md R84). -/

namespace Sys2Proof

theorem onPort_eq_ok_iff {legal arrived : Port} {i j : Instr} :
    onPort legal arrived i = .ok j ↔ arrived = legal ∧ i = j := by
  unfold onPort
  split <;> simp_all

/-- A decoded operation is well formed, and legal on the port its packet arrived on. -/
theorem decodePacket_ok {p : Port} {k : Packet} {i : Instr} (h : decodePacket p k = .ok i) :
    i.wellFormed = true ∧ i.port = p := by
  have hint (w : Word) : decide (IsInt32 (sext32 w)) = true := decide_eq_true (isInt32_sext32 w)
  have hnat (w : Word) : decide (IsU32 (zext32 w)) = true := decide_eq_true w.isLt
  unfold decodePacket at h
  dsimp only at h
  split at h
  case isTrue => cases h
  repeat' split at h
  case isFalse => cases h
  all_goals
    obtain ⟨rfl, rfl⟩ := onPort_eq_ok_iff.1 h
    simp only [Instr.wellFormed, Instr.port, hint, hnat, Bool.and_self, and_self]

end Sys2Proof
end

section
/-! SUPPORT. What an operation that answers has done, said once for all six (43_voice_control.md, 42_mixer.md). -/

namespace Sys2Proof.Machine

/-- `Answers s i t`: the ways in which the operation `i` can take the state `s` to the state `t`. -/
inductive Answers (s : State) : Instr → State → Prop where
  /-- A `PLAY` that fails validation (R170). -/
  | playRejected {voice hz dur vol fx level low : Int} (htarget : playTarget voice dur vol fx = none) :
      Answers s (.play voice hz dur vol fx level low) s
  /-- An accepted `PLAY` inside the domain (R174, R180). -/
  | played {voice hz dur vol fx level low : Int} {v : Fin 4} {kind : EffectKind}
      (htarget : playTarget voice dur vol fx = some (v, kind)) (hhz : 0 ≤ hz) (hdom : effectInDomain level low = true) :
      Answers s (.play voice hz dur vol fx level low)
        ((s.setVoice v (loadedVoice Config.params hz dur vol kind level low)).setRun true)
  /-- A `STOP` of no voice (R181). -/
  | stopRejected {voice : Int} (hvoice : voiceIndex voice = none) : Answers s (.stop voice) s
  /-- A `STOP` of the voice `v` (R181). -/
  | stopped {voice : Int} {v : Fin 4} (hvoice : voiceIndex voice = some v) :
      Answers s (.stop voice) (s.setVoice v { s.voice v with hz := 0 })
  | resumed : Answers s .resume (s.setRun true)
  | paused : Answers s .pause (s.setRun false)
  /-- A whole `FILL` (R155): each voice has made `n` samples and the range holds the bytes `m`. -/
  | filled {base n : Nat} (m : Memory) (hrun : s.run = true) (howns : s.ownsRange base n = true) :
      Answers s (.fill base n) ((s.advanceTimes n).deliver base n m)
  /-- A `TICK` (R150). -/
  | ticked (hrun : s.run = true) (hdefined : s.wavelengthsDefined) :
      Answers s .tick ((s.advanceVoices voiceOrder).setOut (mixByte Config.params.silence (s.mixSum voiceOrder)))

/-- What the gate of a `FILL` can answer (R154, R62). -/
theorem whileFillable_next {base n : Nat} {s t : State} {r : Result} (h : whileFillable base n s r = .next t) :
    s.run = true ∧ s.ownsRange base n = true ∧ r = .next t := by
  obtain ⟨hrun, h⟩ := whileRunning_next h
  split at h
  · exact ⟨hrun, ‹_›, h⟩
  · cases h

/-- The sample steps of a `FILL` that answer have made as many samples of each voice (R157). -/
theorem fillSamples_state {base n : Nat} {m m' : Memory} {s t : State} (h : fillSamples base n m s = .ok (m', t)) :
    t = s.advanceTimes n := by
  induction n generalizing m' t with
  | zero => cases h; rfl
  | succ n ih =>
    rw [fillSamples] at h
    split at h
    · cases h
    · rename_i hn
      rw [State.advanceTimes, ← ih hn]
      exact (fillVoices_next h).1

/-- A whole `FILL` that answers has made `n` samples of each voice and delivered some bytes (R155, R157). -/
theorem fillBuffer_state {p : Params} {base n : Nat} {s t : State} (h : fillBuffer p base n s = .ok t) :
    ∃ m, t = (s.advanceTimes n).deliver base n m := by
  unfold fillBuffer at h
  split at h
  · cases h
  · rename_i m u hu
    cases h
    exact ⟨m, by rw [fillSamples_state hu]⟩

theorem execPlay_answers {voice hz dur vol fx level low : Int} {s t : State}
    (h : execPlay voice hz dur vol fx level low s = .next t) : Answers s (.play voice hz dur vol fx level low) t := by
  unfold execPlay play at h
  split at h
  · cases h; exact .playRejected ‹_›
  · rename_i v kind htarget
    split at h
    · cases h
    · split at h
      · cases h; exact .played htarget (by omega) ‹_›
      · cases h

theorem execStop_answers {voice : Int} {s t : State} (h : execStop voice s = .next t) : Answers s (.stop voice) t := by
  unfold execStop at h
  split at h
  · cases h; exact .stopRejected ‹_›
  · cases h; exact .stopped ‹_›

theorem execFill_answers {base n : Nat} {s t : State} (h : execFill base n s = .next t) : Answers s (.fill base n) t := by
  obtain ⟨hrun, howns, h⟩ := whileFillable_next h
  obtain ⟨m, rfl⟩ := fillBuffer_state (raising_eq_next.1 h)
  exact .filled m hrun howns

theorem execTick_answers {s t : State} (h : execTick s = .next t) : Answers s .tick t := by
  obtain ⟨hrun, h⟩ := whileRunning_next h
  rw [raising_eq_next, tickSample_eq] at h
  split at h
  · cases h
  · rename_i hnone
    cases h
    exact .ticked hrun ((find_lacksWavelength_eq_none s).1 hnone)

/-- The inversion of `exec`: an operation that answers a next state has acted in one of the ways of `Answers`. -/
theorem exec_answers {i : Instr} {s t : State} (h : exec i s = .next t) : Answers s i t := by
  cases i with
  | play => exact execPlay_answers h
  | stop => exact execStop_answers h
  | resume => cases h; exact .resumed
  | pause => cases h; exact .paused
  | fill => exact execFill_answers h
  | tick => exact execTick_answers h

end Sys2Proof.Machine
end

section
/-! SUPPORT. What any number of samples does to a voice: the fields they write (10_state.md R34), the phase they count (R26). -/

namespace Sys2Proof.Machine

@[simp] theorem State.voice_advanceVoices_voiceOrder (s : State) (v : Fin 4) :
    (s.advanceVoices voiceOrder).voice v = (s.voice v).afterSample := by
  rw [State.advanceVoices_voice voiceOrder_nodup, if_pos (mem_voiceOrder v)]

theorem Voice.active_eq_false_iff (V : Voice) : V.active = false ↔ V.hz = 0 := by simp [Voice.active]

/-- `W` is `V` but for the fields the mixer writes: `phase`, `cur` and, for BOUNCE, `dir` (R34, R158). -/
def Voice.SameTone (V W : Voice) : Prop :=
  W = { V with phase := W.phase, cur := W.cur, dir := W.dir } ∧ (V.fx ≠ .bounce → W.dir = V.dir)

theorem Voice.SameTone.refl (V : Voice) : V.SameTone V := ⟨rfl, fun _ => rfl⟩

theorem Voice.SameTone.trans {U V W : Voice} (h₁ : U.SameTone V) (h₂ : V.SameTone W) : U.SameTone W := by
  obtain ⟨hV, hVdir⟩ := h₁
  obtain ⟨hW, hWdir⟩ := h₂
  have hfx : V.fx = U.fx := by rw [hV]
  refine ⟨?_, fun h => (hWdir (hfx ▸ h)).trans (hVdir h)⟩
  rw [hV] at hW
  exact hW

/-- Only the BOUNCE transition writes `dir` (R30). -/
theorem envTransition_dir {V : Voice} (h : V.fx ≠ .bounce) : (envTransition V).dir = V.dir := by
  unfold envTransition upTransition downTransition
  cases hfx : V.fx with
  | bounce => exact absurd hfx h
  | none | fixed => rfl
  | up | down => dsimp only; split <;> rfl

theorem Voice.afterSample_dir {V : Voice} (h : V.fx ≠ .bounce) : V.afterSample.dir = V.dir := by
  unfold Voice.afterSample
  split
  · dsimp only
    split
    · exact envTransition_dir h
    · rfl
  · rfl

theorem Voice.afterSample_sameTone (V : Voice) : V.SameTone V.afterSample := by
  obtain ⟨hhz, hwl, hvol, hdur, hfx, hlevel, hlow⟩ := V.afterSample_frame
  refine ⟨?_, Voice.afterSample_dir⟩
  rw [← hhz, ← hwl, ← hvol, ← hdur, ← hfx, ← hlevel, ← hlow]

theorem Voice.iterate_afterSample_sameTone (V : Voice) (n : Nat) : V.SameTone (Voice.afterSample^[n] V) :=
  Function.Iterate.rec V.SameTone (.refl V) (fun W h => h.trans W.afterSample_sameTone) n

theorem Voice.SameTone.hz_eq {V W : Voice} (h : V.SameTone W) : W.hz = V.hz := by rw [h.1]

/-- The phase counts the samples of an active voice modulo `2^32`, and stands still for a silent one (R26, R151). -/
theorem Voice.iterate_afterSample_phase (V : Voice) (n : Nat) :
    (Voice.afterSample^[n] V).phase.toNat =
      if V.hz = 0 then V.phase.toNat else (V.phase.toNat + n) % 2 ^ 32 := by
  by_cases hz : V.hz = 0
  · rw [if_pos hz, Function.iterate_fixed (Voice.afterSample_silent (V.active_eq_false_iff.2 hz))]
  · rw [if_neg hz]
    induction n with
    | zero => exact (Nat.mod_eq_of_lt V.phase.isLt).symm
    | succ n ih =>
      have hact : (Voice.afterSample^[n] V).active = true := by
        rw [← Bool.not_eq_false, Voice.active_eq_false_iff, (V.iterate_afterSample_sameTone n).hz_eq]
        exact hz
      rw [Function.iterate_succ_apply', Voice.afterSample_phase, if_pos hact, BitVec.toNat_add, ih]
      simp [Nat.add_assoc]

end Sys2Proof.Machine
end

section
/-! SUPPORT. What the operations leave unchanged (10_state.md R34): the writer of each part of the state. -/

namespace Sys2Proof.Machine

section
variable {i : Instr} {s t : State}

/-- The ownership, the `FILL` in progress and the packets to come are written by no operation. -/
theorem Answers.frame (h : Answers s i t) : t.owned = s.owned ∧ t.fill = s.fill ∧ t.pending = s.pending := by
  cases h with
  | filled =>
    obtain ⟨-, -, -, howned, hfill, hpending⟩ := s.advanceTimes_frame _
    exact ⟨howned, hfill, hpending⟩
  | ticked =>
    obtain ⟨-, -, -, howned, hfill, hpending⟩ := s.advanceVoices_frame voiceOrder
    exact ⟨howned, hfill, hpending⟩
  | _ => exact ⟨rfl, rfl, rfl⟩

/-- `BUF` stands still, or a `FILL` while the block runs has delivered its bytes (R154, R155). -/
theorem Answers.buf (h : Answers s i t) :
    t.buf = s.buf ∨ ∃ base n m, i = .fill base n ∧ s.run = true ∧ t.buf = s.buf.deliver base n m := by
  cases h with
  | @filled base n m hrun _ =>
    obtain ⟨-, -, hbuf, -⟩ := s.advanceTimes_frame n
    exact .inr ⟨base, n, m, rfl, hrun, by rw [State.deliver_buf, hbuf]⟩
  | ticked =>
    obtain ⟨-, -, hbuf, -⟩ := s.advanceVoices_frame voiceOrder
    exact .inl hbuf
  | _ => exact .inl rfl

/-- The audio port is driven by `TICK` alone (R88). -/
theorem Answers.out (h : Answers s i t) : t.out = s.out ∨ i = .tick := by
  cases h with
  | filled =>
    obtain ⟨-, hout, -⟩ := s.advanceTimes_frame _
    exact .inl hout
  | ticked => exact .inr rfl
  | _ => exact .inl rfl

/-- `run` is written by `RESUME`, `PAUSE` and an accepted `PLAY` alone (R31). -/
theorem Answers.run (h : Answers s i t) :
    t.run = s.run ∨ i = .resume ∨ i = .pause ∨ ∃ v hz d vol e l w, i = .play v hz d vol e l w := by
  cases h with
  | played => exact .inr (.inr (.inr ⟨_, _, _, _, _, _, _, rfl⟩))
  | resumed => exact .inr (.inl rfl)
  | paused => exact .inr (.inr (.inl rfl))
  | filled =>
    obtain ⟨hrun, -⟩ := s.advanceTimes_frame _
    exact .inl hrun
  | ticked =>
    obtain ⟨hrun, -⟩ := s.advanceVoices_frame voiceOrder
    exact .inl hrun
  | _ => exact .inl rfl

theorem Answers.of_resume_or_pause (h : Answers s i t) (hi : i = .resume ∨ i = .pause) : t = { s with run := t.run } := by
  cases h with
  | resumed | paused => rfl
  | _ => simp at hi

/-- What a voice that has changed tells of the operation: a `PLAY` or a `STOP` of that voice, or an operation of the mixer (R34). -/
theorem Answers.writer_of_voice (h : Answers s i t) {v : Fin 4} (hne : t.voice v ≠ s.voice v) :
    (∃ hz d vol e l w, i = .play v.val hz d vol e l w) ∨
    (i = .stop v.val ∧ t.voice v = { s.voice v with hz := 0 }) ∨
    ((i = .tick ∨ ∃ base n, i = .fill base n) ∧ (s.voice v).SameTone (t.voice v)) := by
  cases h with
  | playRejected | stopRejected | resumed | paused => exact absurd rfl hne
  | @played _ hz dur vol fx level low u _ htarget =>
    obtain ⟨-, -, -, rfl, -⟩ := (playTarget_eq_some_iff ..).1 htarget
    by_cases hv : v = u
    · exact .inl ⟨hz, dur, vol, fx, level, low, by rw [hv]⟩
    · exact absurd (s.voice_setVoice_ne _ hv) hne
  | @stopped _ u hvoice =>
    obtain rfl := (voiceIndex_eq_some_iff ..).1 hvoice
    by_cases hv : v = u
    · subst hv
      exact .inr (.inl ⟨rfl, s.voice_setVoice_same v _⟩)
    · exact absurd (s.voice_setVoice_ne _ hv) hne
  | @filled base n =>
    rw [State.deliver_voice, State.advanceTimes_voice]
    exact .inr (.inr ⟨.inr ⟨base, n, rfl⟩, Voice.iterate_afterSample_sameTone _ n⟩)
  | ticked =>
    rw [State.setOut_voice, State.voice_advanceVoices_voiceOrder]
    exact .inr (.inr ⟨.inl rfl, Voice.afterSample_sameTone _⟩)

end

/-- Settles O38: each part of the state is written by its own operations alone. -/
theorem onlyOwnersWriteVoices : Obligations.OnlyOwnersWriteVoices := by
  intro i s t h
  have ha := exec_answers h
  refine ⟨fun v hv => ha.writer_of_voice hv, ha.of_resume_or_pause, fun hne => ha.run.resolve_left hne, fun hne => ?_,
    fun hne => ha.out.resolve_left hne, ha.frame⟩
  obtain ⟨base, n, -, hi, -⟩ := ha.buf.resolve_left hne
  exact ⟨base, n, hi⟩

end Sys2Proof.Machine
end

section
/-! SUPPORT. The phase under each operation (10_state.md R26). -/

namespace Sys2Proof.Machine

section
variable {s t : State}

theorem Answers.tick_phase (h : Answers s .tick t) (v : Fin 4) :
    (t.voice v).phase.toNat =
      if (s.voice v).hz = 0 then (s.voice v).phase.toNat else ((s.voice v).phase.toNat + 1) % 2 ^ 32 := by
  cases h
  exact (s.voice_advanceVoices_voiceOrder v).symm ▸ (s.voice v).iterate_afterSample_phase 1

theorem Answers.fill_phase {base n : Nat} (h : Answers s (.fill base n) t) (v : Fin 4) :
    (t.voice v).phase.toNat =
      if (s.voice v).hz = 0 then (s.voice v).phase.toNat else ((s.voice v).phase.toNat + n) % 2 ^ 32 := by
  cases h
  rw [State.deliver_voice, State.advanceTimes_voice]
  exact (s.voice v).iterate_afterSample_phase n

/-- A `PLAY` writes the phase of the voice it names, if it passes validation (R170, R174). -/
theorem Answers.play_phase {voice hz d vol e l w : Int} (h : Answers s (.play voice hz d vol e l w) t) (v : Fin 4) :
    (t.voice v).phase =
      if voice = v.val ∧ 0 ≤ vol ∧ vol ≤ 10 ∧ 0 ≤ e ∧ e ≤ 4 ∧ 0 ≤ d then 0 else (s.voice v).phase := by
  cases h with
  | playRejected htarget =>
    rw [if_neg]
    have := (playTarget_eq_none_iff ..).1 htarget
    omega
  | @played _ _ _ _ _ _ _ u kind htarget =>
    obtain ⟨hvol₀, hvol₁, hd, rfl, rfl⟩ := (playTarget_eq_some_iff ..).1 htarget
    have hkind : 0 ≤ kind.code ∧ kind.code ≤ 4 := by cases kind <;> decide
    rw [State.setRun_voice, State.voice_setVoice]
    by_cases hv : v = u
    · subst hv
      rw [if_pos rfl, if_pos ⟨rfl, hvol₀, hvol₁, hkind.1, hkind.2, hd⟩]
      rfl
    · rw [if_neg hv, if_neg]
      rintro ⟨huv, -⟩
      exact hv (Fin.ext (Int.natCast_inj.1 huv).symm)

/-- `STOP`, `RESUME` and `PAUSE` write no phase (R181 to R183). -/
theorem Answers.phase_eq {i : Instr} (h : Answers s i t) (hi : i = .resume ∨ i = .pause ∨ ∃ voice, i = .stop voice)
    (v : Fin 4) : (t.voice v).phase = (s.voice v).phase := by
  cases h with
  | stopRejected | resumed | paused => rfl
  | stopped =>
    rw [State.voice_setVoice]
    split
    · subst v; rfl
    · rfl
  | _ => simp at hi

end

/-- Settles O39: the phase under each of the operations. -/
theorem phaseIsResetOnlyAtToneStart : Obligations.PhaseIsResetOnlyAtToneStart := by
  intro i s t h v
  have ha := exec_answers h
  refine ⟨?_, ?_, ?_, fun hi => ha.phase_eq hi v⟩
  · rintro rfl; exact ha.tick_phase v
  · rintro base n rfl; exact ha.fill_phase v
  · rintro voice hz d vol e l w rfl; exact ha.play_phase v

end Sys2Proof.Machine
end

section
/-! SUPPORT. The state after reset (10_state.md R36) and the invariant. -/

namespace Sys2Proof.Machine

/-- A voice after reset is in range under every sample rate. -/
theorem Voice.reset_ok (rate : Nat) : Voice.reset.Ok rate where
  hz_nonneg := by decide
  wl_of_hz := fun h => absurd h (by decide)
  wl_range := ⟨by decide, Int.natCast_nonneg rate⟩
  vol_scaled := ⟨0, by decide, by decide⟩
  dur_nonneg := by decide
  level_scaled := ⟨0, by decide, by decide⟩
  low_scaled := ⟨0, by decide, by decide⟩
  cur_range := rfl

/-- Settles O40: every voice after reset is `Voice.reset`, whose fields are the table's. -/
theorem resetSilencesEveryVoice : Obligations.ResetSilencesEveryVoice := by
  refine ⟨fun v => ?_, rfl⟩
  rw [State.reset_voice]
  decide

/-- Settles O42: silent voices, an empty `BUF` and no `FILL` in progress. -/
theorem resetMeetsInvariant : Obligations.ResetMeetsInvariant where
  voices_ok v := (State.reset_voice v).symm ▸ Voice.reset_ok Config.sampleRate
  buf_canonical := State.reset_buf_wf
  job_ok := trivial

end Sys2Proof.Machine
end

section
/-! SUPPORT. The range of the envelope level (10_state.md R29; 41_envelope.md R136, R137): every transition keeps it, the configured
bounds being eightfold magnitudes. -/

namespace Sys2Proof.Machine

section
variable {V : Voice} (hlevel : ∃ m : Nat, m < 268435456 ∧ sext32 V.level = 8 * (m : Int))
include hlevel

theorem upTransition_curInRange (hfx : V.fx = .up) (h : V.curInRange) : (upTransition V).curInRange := by
  obtain ⟨m, hm, hlevel⟩ := hlevel
  simp only [Voice.curInRange, hfx] at h
  unfold upTransition
  dsimp only
  split <;> simp only [Voice.curInRange, hfx]
  · omega
  · rw [sext32_wordOfInt (by omega)]
    omega

theorem downTransition_curInRange (hfx : V.fx = .down) (h : V.curInRange) : (downTransition V).curInRange := by
  obtain ⟨m, hm, hlevel⟩ := hlevel
  have hone : sext32 1 = 1 := by decide
  simp only [Voice.curInRange, hfx] at h
  unfold downTransition
  dsimp only
  split <;> simp only [Voice.curInRange, hfx]
  · omega
  · rw [sext32_wordOfInt (by omega)]
    omega

variable (hlow : ∃ m : Nat, m < 268435456 ∧ sext32 V.low = 8 * (m : Int))
include hlow

/-- BOUNCE lands in its range from any level: a level between the bounds is in range, and where `level <= low` a step snaps unless it
meets both bounds at once (R137). -/
theorem bounceTransition_curInRange (hfx : V.fx = .bounce) : (bounceTransition V).curInRange := by
  obtain ⟨m, hm, hlevel⟩ := hlevel
  obtain ⟨k, hk, hlow⟩ := hlow
  unfold bounceTransition
  dsimp only
  split
  · simp only [Voice.curInRange, hfx]
    rw [sext32_wordOfInt (by omega)]
    omega
  · split <;> simp only [Voice.curInRange, hfx] <;> rw [sext32_wordOfInt (by omega)] <;> omega

theorem envTransition_curInRange (h : V.curInRange) : (envTransition V).curInRange := by
  unfold envTransition
  cases hfx : V.fx with
  | none | fixed => exact h
  | up => exact upTransition_curInRange hlevel hfx h
  | down => exact downTransition_curInRange hlevel hfx h
  | bounce => exact bounceTransition_curInRange hlevel hlow hfx

theorem Voice.afterSample_curInRange (h : V.curInRange) : V.afterSample.curInRange := by
  unfold Voice.afterSample
  split
  · dsimp only
    split
    · exact envTransition_curInRange (V := { V with phase := V.phase + 1 }) hlevel hlow h
    · exact h
  · exact h

end

/-! ### The ranges of all fields of a voice (R21) -/

section
variable {rate : Nat} {V : Voice}

theorem Voice.Ok.afterSample (h : V.Ok rate) : V.afterSample.Ok rate := by
  obtain ⟨hhz, hwl, hvol, hdur, -, hlevel, hlow⟩ := V.afterSample_frame
  constructor
  case cur_range => exact V.afterSample_curInRange h.level_scaled h.low_scaled h.cur_range
  case hz_nonneg => exact hhz ▸ h.hz_nonneg
  case wl_of_hz =>
    rw [V.afterSample_active, hwl, hhz]
    exact h.wl_of_hz
  case wl_range => exact hwl ▸ h.wl_range
  case vol_scaled => exact hvol ▸ h.vol_scaled
  case dur_nonneg => exact hdur ▸ h.dur_nonneg
  case level_scaled => exact hlevel ▸ h.level_scaled
  case low_scaled => exact hlow ▸ h.low_scaled

theorem Voice.Ok.iterate_afterSample (h : V.Ok rate) (n : Nat) : (Voice.afterSample^[n] V).Ok rate :=
  Function.Iterate.rec (Voice.Ok rate) h (fun _ => Voice.Ok.afterSample) n

/-- A voice that `STOP` has silenced keeps its ranges; its wavelength is no longer tied to its frequency (R181). -/
theorem Voice.Ok.silenced (h : V.Ok rate) : Voice.Ok rate { V with hz := 0 } :=
  { h with
    hz_nonneg := (by decide : 0 ≤ sext32 0)
    wl_of_hz := fun hactive => absurd hactive (by simp [Voice.active]) }

end

/-- The start level of a tone lies in the range of its kind (R175). -/
theorem loadedVoice_curInRange (p : Params) (hz dur vol : Int) (kind : EffectKind) {level low : Int}
    (hl : level.natAbs < 268435456) : (loadedVoice p hz dur vol kind level low).curInRange := by
  have hlevel := sext32_scaleEffect hl
  cases kind with
  | none | fixed => rfl
  | up | down =>
    simp only [Voice.curInRange, loadedVoice, startLevel]
    omega
  | bounce => exact ⟨fun hlt => ⟨hlt.le, le_rfl⟩, fun _ => .inl rfl⟩

/-- An accepted `PLAY` of the domain loads a voice in range (R174, R180). -/
theorem loadedVoice_ok {p : Params} (hp : p.sampleRate * 10 < 2147483648) {voice hz dur vol fx level low : Int} {v : Fin 4}
    {kind : EffectKind} (htarget : playTarget voice dur vol fx = some (v, kind)) (hhz : 0 ≤ hz)
    (hdom : effectInDomain level low = true) (hhz32 : IsInt32 hz) (hdur32 : IsInt32 dur) :
    (loadedVoice p hz dur vol kind level low).Ok p.sampleRate := by
  obtain ⟨hvol₀, hvol₁, hdur₀, -, -⟩ := (playTarget_eq_some_iff ..).1 htarget
  obtain ⟨hlevel, hlow⟩ := (effectInDomain_eq_true_iff ..).1 hdom
  have hle := wavelength_le_rate p.sampleRate hz.toNat
  have ehz := sext32_wordOfInt hhz32
  have ewl := sext32_ofNat (n := wavelength p.sampleRate hz.toNat) (by omega)
  have edur := sext32_wordOfInt hdur32
  constructor
  case cur_range => exact loadedVoice_curInRange p hz dur vol kind hlevel
  case hz_nonneg => exact ehz.symm ▸ hhz
  case wl_of_hz =>
    rintro -
    exact ewl.trans (congrArg (fun x => ((wavelength p.sampleRate x.toNat : Nat) : Int)) ehz.symm)
  case wl_range => exact ewl.symm ▸ ⟨Int.natCast_nonneg _, Int.ofNat_le.2 hle⟩
  case vol_scaled => exact ⟨vol.toNat, by omega, (sext32_scaleVolume hvol₀ hvol₁).trans (by omega)⟩
  case dur_nonneg => exact edur.symm ▸ hdur₀
  case level_scaled => exact ⟨level.natAbs, hlevel, sext32_scaleEffect hlevel⟩
  case low_scaled => exact ⟨low.natAbs, hlow, sext32_scaleEffect hlow⟩

end Sys2Proof.Machine
end

section
/-! SUPPORT. The invariant under one operation, under the start of a `FILL` and under its sample steps. -/

namespace Sys2Proof.Machine

/-- An operation whose operands fit their words keeps the ranges of every voice. -/
theorem Answers.voices_ok {i : Instr} {s t : State} (h : Answers s i t) (hi : i.wellFormed = true)
    (hs : ∀ v, (s.voice v).Ok Config.sampleRate) (v : Fin 4) : (t.voice v).Ok Config.sampleRate := by
  cases h with
  | playRejected | stopRejected | resumed | paused => exact hs v
  | @played _ hz dur vol fx level low u kind htarget hhz hdom =>
    simp only [Instr.wellFormed, Bool.and_eq_true, decide_eq_true_eq] at hi
    obtain ⟨⟨⟨⟨⟨⟨-, hhz32⟩, hdur32⟩, -⟩, -⟩, -⟩, -⟩ := hi
    rw [State.setRun_voice, State.voice_setVoice]
    split
    · exact loadedVoice_ok (p := Config.params) sampleRate_mul_ten_lt htarget hhz hdom hhz32 hdur32
    · exact hs v
  | stopped =>
    rw [State.voice_setVoice]
    split
    · exact (hs _).silenced
    · exact hs v
  | filled =>
    rw [State.deliver_voice, State.advanceTimes_voice]
    exact (hs v).iterate_afterSample _
  | ticked =>
    rw [State.setOut_voice, State.voice_advanceVoices_voiceOrder]
    exact (hs v).afterSample

/-- An operation keeps the invariant. A `FILL` must not start inside a `FILL` in progress, whose range it could make visible. -/
theorem Answers.inv {i : Instr} {s t : State} (h : Answers s i t) (hi : i.wellFormed = true)
    (hfill : s.fill = none ∨ s.run = false ∨ i.port = .host) (hs : s.Inv) : t.Inv := by
  obtain ⟨-, htfill, -⟩ := h.frame
  refine ⟨h.voices_ok hi hs.voices_ok, ?_, ?_⟩
  · obtain hbuf | ⟨base, n, m, -, -, hbuf⟩ := h.buf
    · exact hbuf ▸ hs.buf_canonical
    · exact hbuf ▸ Memory.deliver_wf base n m hs.buf_canonical
  · have hjob := hs.job_ok
    unfold State.jobOk at hjob ⊢
    obtain hbuf | ⟨base, n, m, rfl, hrun, -⟩ := h.buf
    · rw [htfill, hbuf]; exact hjob
    · rw [htfill, hfill.resolve_right (by simp [hrun, Instr.port])]
      trivial

/-- Between the operations of a `FILL` in progress, while the block runs, only host operations take their place, and none of them
opens a `FILL` (R69). -/
theorem turn_operation_fill {s : State} {issue : Issue} {rest : List Issue} {cut : Bool} (h : s.turn = .operation issue rest cut) :
    s.fill = none ∨ cut = false ∧ (s.run = false ∨ issue.port = .host) := by
  unfold State.turn at h
  split at h
  · exact .inl ‹_›
  · exact .inl ‹_›
  · split at h <;> cases h
  · split at h
    · rename_i henters
      cases h
      simp only [Issue.entersFill, Issue.reached, Bool.or_eq_true, Bool.not_eq_true', Bool.and_eq_true, decide_eq_true_eq] at henters
      exact .inr ⟨rfl, henters.imp_right And.left⟩
    · cases h

theorem splitFill_of_not_cut (i : Instr) : splitFill false i = none := by cases i <;> rfl

/-- A `FILL` just opened is well formed: its bytes are the silence write, and those of `BUF` in its range are withdrawn (R62, R155). -/
theorem FillJob.ok_opened (buf : Memory) (x : Byte) {base n : Nat} (hn : 0 < n) :
    FillJob.Ok (buf.withdraw base n) { base := base, length := n, index := 0, bytes := fillSilence x base n } where
  unfinished := hn
  stored k hk := by rw [fillSilence_read, if_pos (by dsimp only at hk ⊢; omega)]; rfl
  inside a ha := by rw [fillSilence_read, if_neg (by dsimp only at ha ⊢; omega)]
  canonical := fillSilence_wf x base n
  hidden k hk := by rw [Memory.read_withdraw, if_pos (by dsimp only at hk ⊢; omega)]

/-- The start of a `FILL` keeps the invariant. -/
theorem openFill_inv {p : Params} {base n : Nat} {s t : State} (h : openFill p base n s = .next t) (hs : s.Inv) : t.Inv := by
  obtain ⟨-, -, h⟩ := whileFillable_next h
  split at h <;> cases h
  · exact hs
  · exact ⟨hs.voices_ok, Memory.withdraw_wf base n hs.buf_canonical, FillJob.ok_opened s.buf p.silence (by omega)⟩

/-- A sample step that is not the last leaves the `FILL` in progress well formed. -/
theorem FillJob.Ok.advance {buf m : Memory} {job : FillJob} (h : job.Ok buf) (hlt : job.index + 1 < job.length)
    (hother : ∀ c, c ≠ job.base + job.index → m.read c = job.bytes.read c)
    (hown : (job.bytes.read (job.base + job.index)).isSome = true → (m.read (job.base + job.index)).isSome = true)
    (hwf : Memory.wf job.bytes → Memory.wf m) : FillJob.Ok buf { job with index := job.index + 1, bytes := m } where
  unfinished := hlt
  stored k hk := by
    by_cases hki : k = job.index
    · subst hki; exact hown (h.stored _ hk)
    · rw [hother _ (by dsimp only; omega)]; exact h.stored k hk
  inside a ha := by
    have := h.unfinished
    rw [hother a (by dsimp only at ha; omega)]
    exact h.inside a ha
  canonical := hwf h.canonical
  hidden := h.hidden

/-- A sample step of the `FILL` in progress keeps the invariant. -/
theorem stepFill_inv {job : FillJob} {s t : State} (h : stepFill job s = .next t) (hfill : s.fill = some job) (hs : s.Inv) :
    t.Inv := by
  obtain ⟨-, -, hbuf, -⟩ := s.advanceVoices_frame voiceOrder
  have hvoices (v : Fin 4) : ((s.advanceVoices voiceOrder).voice v).Ok Config.sampleRate := by
    rw [State.voice_advanceVoices_voiceOrder]
    exact (hs.voices_ok v).afterSample
  have hjob : job.Ok s.buf := by simpa only [State.jobOk, hfill] using hs.job_ok
  obtain ⟨m, hother, hown, hwf, ⟨hlt, rfl⟩ | ⟨-, rfl⟩⟩ := stepFill_next h
  · refine ⟨hvoices, hbuf.symm ▸ hs.buf_canonical, ?_⟩
    show FillJob.Ok (s.advanceVoices voiceOrder).buf _
    rw [hbuf]
    exact hjob.advance hlt hother hown hwf
  · exact ⟨hvoices, Memory.deliver_wf _ _ m (hbuf.symm ▸ hs.buf_canonical), trivial⟩

/-- Settles O43: each kind of step keeps the invariant. -/
theorem stepKeepsInvariant : Obligations.StepKeepsInvariant := by
  intro s t hs h
  obtain ⟨-, rfl⟩ | ⟨job, hturn, hstep⟩ | ⟨issue, rest, cut, i, hturn, hdecode, hop⟩ := step_cases h
  · exact hs
  · exact stepFill_inv hstep (turn_sample hturn).1 hs
  · have hs' : (s.setPending rest).Inv := ⟨hs.voices_ok, hs.buf_canonical, hs.job_ok⟩
    obtain ⟨hwf, hport⟩ := decodePacket_ok hdecode
    obtain ⟨base, n, -, hopen⟩ | ⟨-, hexec⟩ := hop
    · exact openFill_inv hopen hs'
    · refine (exec_answers hexec).inv hwf ?_ hs'
      rw [hport]
      exact (turn_operation_fill hturn).imp_right And.right

end Sys2Proof.Machine
end

section
/-! SUPPORT. The answers of the host operations, the other way round: what `Answers` says they do, `exec` answers (43_voice_control.md). -/

namespace Sys2Proof.Machine

theorem State.setVoice_setRun (s : State) (b : Bool) (v : Fin 4) (V : Voice) :
    (s.setRun b).setVoice v V = (s.setVoice v V).setRun b := rfl

theorem State.setRun_setRun (s : State) (b c : Bool) : (s.setRun b).setRun c = s.setRun c := rfl

/-- `s` with the `FILL` `job` in progress and the bytes `w` visible in `BUF`. -/
def State.filling (s : State) (w : Memory) (job : FillJob) : State := (s.setBuf w).setFill (some job)

section
variable {i : Instr} {s t : State}

/-- For a host operation `Answers` says the whole of `exec`. -/
theorem Answers.exec_eq (h : Answers s i t) (hi : i.port = .host) : exec i s = .next t := by
  cases h with
  | playRejected htarget => simp only [exec, execPlay, play, htarget]
  | played htarget hhz hdom =>
    simp only [exec, execPlay, play, htarget, hdom, if_true]
    rw [if_neg (by omega)]
  | stopRejected hvoice => simp only [exec, execStop, hvoice]
  | stopped hvoice => simp only [exec, execStop, hvoice]
  | resumed | paused => rfl
  | filled | ticked => cases hi

/-- What a host operation has done, it does again without effect (R65). -/
theorem Answers.again (h : Answers s i t) (hi : i.port = .host) : Answers t i t := by
  cases h with
  | playRejected htarget => exact .playRejected htarget
  | @played _ hz dur vol fx level low v kind htarget hhz hdom =>
    have hagain := Answers.played
      (s := (s.setVoice v (loadedVoice Config.params hz dur vol kind level low)).setRun true) htarget hhz hdom
    rwa [State.setVoice_setRun, State.setVoice_setVoice, State.setRun_setRun] at hagain
  | stopRejected hvoice => exact .stopRejected hvoice
  | @stopped _ v hvoice =>
    have hagain := Answers.stopped (s := s.setVoice v { s.voice v with hz := 0 }) hvoice
    rwa [State.setVoice_setVoice, State.voice_setVoice_same] at hagain
  | resumed => exact .resumed
  | paused => exact .paused
  | filled | ticked => cases hi

/-- A host operation neither reads nor writes `BUF` and the `FILL` in progress (R34, R70): what they hold makes no difference to it. -/
theorem Answers.filling (h : Answers s i t) (hi : i.port = .host) (w : Memory) (job : FillJob) :
    Answers (s.filling w job) i (t.filling w job) := by
  cases h with
  | playRejected htarget => exact .playRejected htarget
  | played htarget hhz hdom => exact .played htarget hhz hdom
  | stopRejected hvoice => exact .stopRejected hvoice
  | stopped hvoice => exact .stopped hvoice
  | resumed => exact .resumed
  | paused => exact .paused
  | filled | ticked => cases hi

/-- Only `FILL` writes `BUF` (R34, R65). -/
theorem Answers.host_buf (h : Answers s i t) (hi : i.port = .host) : t.buf = s.buf := by
  obtain hbuf | ⟨base, n, -, rfl, -⟩ := h.buf
  · exact hbuf
  · cases hi

end

/-- Settles O11: what a host operation has done, it does again without effect. -/
theorem hostOperationsAreIdempotent : Obligations.HostOperationsAreIdempotent :=
  fun _ _ _ hi h => ((exec_answers h).again hi).exec_eq hi

/-- A `TICK` makes one sample of each voice (R150), by that voice alone. -/
theorem Answers.tick_voice {s t : State} (h : Answers s .tick t) (v : Fin 4) : t.voice v = (s.voice v).afterSample := by
  cases h
  rw [State.setOut_voice, State.voice_advanceVoices_voiceOrder]

/-- Settles O31: each voice after a `TICK` is a function of that voice before it. -/
theorem voicesAreIndependent : Obligations.VoicesAreIndependent := by
  intro s t t' w V h h' v hv
  rw [(exec_answers h).tick_voice, (exec_answers h').tick_voice, s.voice_setVoice_ne V hv]

end Sys2Proof.Machine
end

section
/-! SUPPORT. A whole `FILL` that answers: what it asked and what it left in `BUF` (R61, R155, R233). -/

namespace Sys2Proof.Machine

/-- A range that lies in no region the audio agent owns (R62, U7). -/
theorem State.ownsRange_eq_false {s : State} {base n : Nat} (hn : 0 < n)
    (h : ∀ r ∈ s.owned, base < r.base ∨ r.base + r.size < base + n) : s.ownsRange base n = false := by
  have hn' : (n == 0) = false := beq_false_of_ne (by omega)
  simp only [State.ownsRange, hn', Bool.false_or, List.any_eq_false, Bool.and_eq_true, decide_eq_true_eq]
  intro r hr
  have := h r hr
  omega

/-- Settles O33: the gate of `FILL` asks for the whole range. -/
theorem unownedBufferIsRefused : Obligations.UnownedBufferIsRefused := by
  intro s base n hrun hn howned
  show whileFillable base n s _ = _
  rw [whileFillable, whileRunning_of_run hrun, State.ownsRange_eq_false hn howned]
  rfl

/-- A `FILL` of no bytes changes nothing (R156). -/
theorem fillBuffer_zero (p : Params) (base : Nat) (s : State) : fillBuffer p base 0 s = .ok s := by
  have : s.deliver base 0 [] = s := congrArg s.setBuf (s.buf.withdraw_zero base)
  exact congrArg Except.ok this

section
variable {base n : Nat} {s t : State}

/-- The answer of a `FILL`'s gate and of its body. -/
theorem exec_fill_eq_next_iff :
    exec (.fill base n) s = .next t ↔
      s.run = true ∧ s.ownsRange base n = true ∧ fillBuffer Config.params base n s = .ok t := by
  constructor
  · intro h
    obtain ⟨hrun, howns, h⟩ := whileFillable_next h
    exact ⟨hrun, howns, raising_eq_next.1 h⟩
  · rintro ⟨hrun, howns, h⟩
    show whileFillable base n s _ = _
    rw [whileFillable, whileRunning_of_run hrun, if_pos howns, raising_eq_next.2 h]

/-- A `FILL` of at least one byte that answers has found a wavelength on every active voice (R233). -/
theorem wavelengthsDefined_of_exec_fill (h : exec (.fill base n) s = .next t) (hn : 0 < n) : s.wavelengthsDefined := by
  obtain ⟨-, -, h⟩ := exec_fill_eq_next_iff.1 h
  rw [← find_lacksWavelength_eq_none, Option.eq_none_iff_forall_ne_some]
  intro v hv
  rw [fillBuffer_error Config.params base n hn hv] at h
  cases h

/-- The bytes a `FILL` leaves where it answers: each of its range a sample, each other as it was (R61, R155). -/
theorem exec_fill_read (h : exec (.fill base n) s = .next t) :
    (∀ k, k < n → t.buf.read (base + k) =
      some (mixByte Config.params.silence ((s.advanceTimes k).mixSum voiceOrder))) ∧
    (∀ c, (c < base ∨ base + n ≤ c) → t.buf.read c = s.buf.read c) := by
  obtain ⟨-, -, hbody⟩ := exec_fill_eq_next_iff.1 h
  rcases Nat.eq_zero_or_pos n with rfl | hn
  · rw [fillBuffer_zero] at hbody
    cases hbody
    exact ⟨fun k hk => absurd hk (Nat.not_lt_zero k), fun _ _ => rfl⟩
  · obtain ⟨t', ht', -, hin, hout, -⟩ :=
      fillBuffer_ok Config.params base n (wavelengthsDefined_of_exec_fill h hn)
    cases hbody.symm.trans ht'
    exact ⟨hin, hout⟩

end

end Sys2Proof.Machine
end

section
/-! SUPPORT. What of `BUF` is visible before, during and after a `FILL` (20_memory.md R62), and the form every step keeps. -/

namespace Sys2Proof.Machine

/-- A `FILL` of the `n` bytes from `base` whose silence is written and whose sample steps are still to take (R69, R155). -/
def FillJob.opened (p : Params) (base n : Nat) : FillJob :=
  { base := base, length := n, index := 0, bytes := fillSilence p.silence base n }

/-- The state in which that `FILL` is in progress: the bytes of its range have no visible value (R62). -/
def State.opened (s : State) (p : Params) (base n : Nat) : State :=
  s.filling (s.buf.withdraw base n) (.opened p base n)

/-- A `FILL` of no bytes is over when it is opened; any other is in progress (R69, R156). -/
theorem openFill_next {p : Params} {base n : Nat} {s t : State} (h : openFill p base n s = .next t) :
    s.run = true ∧ s.ownsRange base n = true ∧
      (n = 0 ∧ t = s ∨
       0 < n ∧ t = s.opened p base n) := by
  obtain ⟨hrun, howns, h⟩ := whileFillable_next h
  refine ⟨hrun, howns, ?_⟩
  split at h <;> cases h
  · exact .inl ⟨‹_›, rfl⟩
  · exact .inr ⟨by omega, rfl⟩

section
variable {job : FillJob} {s t : State}

/-- What a sample step does to `BUF` (R62). -/
theorem stepFill_buf (h : stepFill job s = .next t) : t.buf = s.buf ∨ ∃ m, t.buf = s.buf.deliver job.base job.length m := by
  obtain ⟨-, -, hbuf, -⟩ := s.advanceVoices_frame voiceOrder
  obtain ⟨m, -, -, -, ⟨-, rfl⟩ | ⟨-, rfl⟩⟩ := stepFill_next h
  · exact .inl hbuf
  · exact .inr ⟨m, congrArg (·.deliver job.base job.length m) hbuf⟩

/-- A sample step that is not the last changes nothing of `BUF`, and the `FILL` stays in progress (R62). -/
theorem stepFill_unfinished (h : stepFill job s = .next t) (hjob : job.Ok s.buf) (hlt : job.index + 1 < job.length) :
    t.buf = s.buf ∧ ∃ next, t.fill = some next ∧ next.Ok t.buf := by
  obtain ⟨-, -, hbuf, -⟩ := s.advanceVoices_frame voiceOrder
  obtain ⟨m, hother, hown, hwf, ⟨-, rfl⟩ | ⟨hge, -⟩⟩ := stepFill_next h
  · exact ⟨hbuf, _, rfl, hbuf.symm ▸ hjob.advance hlt hother hown hwf⟩
  · omega

/-- The last sample step makes the bytes of the `FILL` visible and no other (R61, R62). -/
theorem stepFill_last (h : stepFill job s = .next t) (hjob : job.Ok s.buf) (hlast : job.index + 1 = job.length) :
    t.fill = none ∧ (∀ k, k < job.length → (t.buf.read (job.base + k)).isSome = true) ∧
      ∀ a, (a < job.base ∨ job.base + job.length ≤ a) → t.buf.read a = s.buf.read a := by
  obtain ⟨-, -, hbuf, -⟩ := s.advanceVoices_frame voiceOrder
  obtain ⟨m, hother, hown, -, ⟨hlt, -⟩ | ⟨-, rfl⟩⟩ := stepFill_next h
  · omega
  refine ⟨rfl, fun k hk => ?_, fun a ha => ?_⟩ <;> rw [State.setFill_buf, State.deliver_buf, hbuf, Memory.read_deliver]
  · have hm : (m.read (job.base + k)).isSome = true := by
      by_cases hki : k = job.index
      · exact hki ▸ hown (hjob.stored _ hjob.unfinished)
      · rw [hother _ (by omega)]; exact hjob.stored k hk
    rw [Option.isSome_or, hm, Bool.true_or]
  · rw [hother a (by omega), hjob.inside a ha, if_neg (by omega), Option.none_or]

/-- A sample step takes no byte its value: the `FILL` that withdrew its range gives every byte of it back (R62). -/
theorem stepFill_keepsWritten (h : stepFill job s = .next t) (hjob : job.Ok s.buf) {a : Nat}
    (ha : (s.buf.read a).isSome = true) : (t.buf.read a).isSome = true := by
  have hindex := hjob.unfinished
  by_cases hlast : job.index + 1 = job.length
  · obtain ⟨-, hin, hout⟩ := stepFill_last h hjob hlast
    by_cases hrange : a < job.base ∨ job.base + job.length ≤ a
    · rwa [hout a hrange]
    · obtain ⟨k, rfl⟩ := Nat.exists_eq_add_of_le (show job.base ≤ a by omega)
      exact hin k (by omega)
  · obtain ⟨hbuf, -⟩ := stepFill_unfinished h hjob (by omega)
    rwa [hbuf]

end

section
variable {p : Params} {base n : Nat} {s t : State}

/-- A `FILL` just opened leaves its range without visible values and every other byte as it was (R62). -/
theorem openFill_read (h : openFill p base n s = .next t) (a : Nat) :
    t.buf.read a = if base ≤ a ∧ a < base + n then none else s.buf.read a := by
  obtain ⟨-, -, ⟨rfl, rfl⟩ | ⟨-, rfl⟩⟩ := openFill_next h
  · rw [if_neg (by omega)]
  · exact s.buf.read_withdraw base n a

/-- A `FILL` just opened is the one in progress for every byte that has lost its value. -/
theorem openFill_keepsWritten (h : openFill p base n s = .next t) {a : Nat} (ha : (s.buf.read a).isSome = true) :
    (t.buf.read a).isSome = true ∨ ∃ job, t.fill = some job ∧ job.base ≤ a ∧ a < job.base + job.length := by
  rw [openFill_read h]
  split
  · rename_i hrange
    obtain ⟨-, -, ⟨rfl, -⟩ | ⟨-, rfl⟩⟩ := openFill_next h
    · omega
    · exact .inr ⟨_, rfl, hrange⟩
  · exact .inl ha

theorem openFill_wf (h : openFill p base n s = .next t) (hs : Memory.wf s.buf) : Memory.wf t.buf := by
  obtain ⟨-, -, ⟨-, rfl⟩ | ⟨-, rfl⟩⟩ := openFill_next h
  · exact hs
  · exact Memory.withdraw_wf base n hs

end

section
variable {i : Instr} {s t : State}

/-- An operation takes no byte its value: a whole `FILL` writes every byte of its range (R155). -/
theorem exec_keepsWritten (h : exec i s = .next t) {a : Nat} (ha : (s.buf.read a).isSome = true) :
    (t.buf.read a).isSome = true := by
  obtain hbuf | ⟨base, n, -, rfl, -⟩ := (exec_answers h).buf
  · rwa [hbuf]
  · obtain ⟨hin, hout⟩ := exec_fill_read h
    by_cases hrange : a < base ∨ base + n ≤ a
    · rwa [hout a hrange]
    · obtain ⟨k, rfl⟩ := Nat.exists_eq_add_of_le (show base ≤ a by omega)
      rw [hin k (by omega)]
      rfl

theorem exec_wf (h : exec i s = .next t) (hs : Memory.wf s.buf) : Memory.wf t.buf := by
  obtain hbuf | ⟨base, n, m, -, -, hbuf⟩ := (exec_answers h).buf
  · exact hbuf ▸ hs
  · exact hbuf ▸ Memory.deliver_wf base n m hs

end

theorem State.jobOk_iff {s : State} {job : FillJob} (hfill : s.fill = some job) : s.jobOk ↔ job.Ok s.buf := by
  simp only [State.jobOk, hfill]

/-- Settles O44: by the four things a step can be. -/
theorem stepKeepsBufferCanonical : Obligations.StepKeepsBufferCanonical := by
  intro s t h
  obtain ⟨-, rfl⟩ | ⟨job, hturn, hstep⟩ | ⟨issue, rest, cut, i, -, -, ⟨base, n, -, hopen⟩ | ⟨-, hexec⟩⟩ := step_cases h
  · exact ⟨id, fun _ _ ha => .inl ha⟩
  · refine ⟨fun hwf => ?_, fun hjob a ha => .inl (stepFill_keepsWritten hstep ?_ ha)⟩
    · obtain hbuf | ⟨m, hbuf⟩ := stepFill_buf hstep
      · exact hbuf ▸ hwf
      · exact hbuf ▸ Memory.deliver_wf job.base job.length m hwf
    · exact (State.jobOk_iff (turn_sample hturn).1).1 hjob
  · exact ⟨openFill_wf (s := s.setPending rest) hopen, fun _ a ha => openFill_keepsWritten hopen ha⟩
  · exact ⟨exec_wf (s := s.setPending rest) hexec, fun _ a ha => .inl (exec_keepsWritten hexec ha)⟩

/-- Settles O48: the opening, the sample steps and reset, one by one. -/
theorem onlyFinalContentsAreVisible : Obligations.OnlyFinalContentsAreVisible :=
  ⟨fun _ _ _ _ _ h => openFill_read h,
    fun _ _ _ hjob h => ⟨stepFill_unfinished h hjob, stepFill_last h hjob⟩,
    fun s _ _ hjob k hk => s.assertReset_buf.symm ▸ hjob.hidden k hk⟩

end Sys2Proof.Machine
end

section
/-! SUPPORT. The serialised form of a packet (30_encoding.md R89): the bytes of a packet are read back as that packet. -/

namespace Sys2Proof

theorem wordOfBytes_extract (w : Word) :
    wordOfBytes (w.extractLsb' 0 8) (w.extractLsb' 8 8) (w.extractLsb' 16 8) (w.extractLsb' 24 8) = w := by
  unfold wordOfBytes
  rw [BitVec.extractLsb'_append_extractLsb'_eq_extractLsb' (start₁ := 16) (len₁ := 8) (start₂ := 24) rfl,
    BitVec.extractLsb'_append_extractLsb'_eq_extractLsb' (start₁ := 8) (len₁ := 8) (start₂ := 16) rfl,
    BitVec.extractLsb'_append_extractLsb'_eq_extractLsb' (start₁ := 0) (len₁ := 8) (start₂ := 8) rfl]
  exact BitVec.extractLsb'_eq_self

theorem takeWord_bytesOfWord (w : Word) (rest : List Byte) : takeWord (bytesOfWord w ++ rest) = some (w, rest) := by
  simp only [bytesOfWord, List.cons_append, List.nil_append, takeWord, wordOfBytes_extract]

/-- Words that are serialised are read back (R89). -/
theorem takeWords_flatMap_bytesOfWord (ws : List Word) : takeWords ws.length (ws.flatMap bytesOfWord) = some ws := by
  induction ws with
  | nil => rfl
  | cons w ws ih => rw [List.length_cons, List.flatMap_cons, takeWords, takeWord_bytesOfWord]; simp only [ih]

/-- A packet that is serialised is read back (R89). -/
theorem packetOfBytes_bytes (k : Packet) : packetOfBytes k.bytes = some k := by
  have h : takeWords 8 k.bytes = some k.words := takeWords_flatMap_bytesOfWord k.words
  rw [packetOfBytes, h]
  rfl

theorem decodeBytes_bytes (p : Port) (k : Packet) : decodeBytes p k.bytes = decodePacket p k := by
  rw [decodeBytes, packetOfBytes_bytes]

end Sys2Proof
end

section
/-! SUPPORT. Which turn is next and what the step then runs (20_memory.md R68, R69, R73). -/

namespace Sys2Proof.Machine

/-- The decoder of the step and that of the opcode table agree. -/
theorem decodePacket_issueOfTable {nbits w : Nat} {i : Instr} (h : decodeTableWord nbits w = some i) :
    decodePacket (issueOfTable nbits w).port (issueOfTable nbits w).packet = .ok i := by
  rw [decodeTableWord, decodeBytes_bytes] at h
  split at h
  · rename_i j hj
    cases h
    exact hj
  · cases h

section
variable {s : State} {job : FillJob} {issue : Issue} {rest : List Issue} {i : Instr} {cut : Bool}

theorem turn_of_idle (hfill : s.fill = none) (hpending : s.pending = []) : s.turn = .idle := by
  simp only [State.turn, hfill, hpending]

theorem turn_of_issue (hfill : s.fill = none) (hpending : s.pending = issue :: rest) :
    s.turn = .operation issue rest (nextCuts rest) := by
  simp only [State.turn, hfill, hpending]

theorem turn_of_fill_alone (hfill : s.fill = some job) (hpending : s.pending = []) :
    s.turn = if s.run then .sample job else .idle := by
  simp only [State.turn, hfill, hpending]

theorem turn_of_fill (hfill : s.fill = some job) (hpending : s.pending = issue :: rest) :
    s.turn = if issue.entersFill job s.run then .operation issue rest false else .sample job := by
  simp only [State.turn, hfill, hpending]

theorem step_of_idle (h : s.turn = .idle) : step s = .next s := by
  simp only [step, h]

theorem step_of_sample (h : s.turn = .sample job) : step s = stepFill job s := by
  simp only [step, h]

theorem step_of_operation (h : s.turn = .operation issue rest cut) (hi : decodePacket issue.port issue.packet = .ok i)
    (hsplit : splitFill cut i = none) : step s = exec i (s.setPending rest) := by
  simp only [step, h, hi, hsplit]

theorem step_of_opening {base n : Nat} (h : s.turn = .operation issue rest cut)
    (hi : decodePacket issue.port issue.packet = .ok i) (hsplit : splitFill cut i = some (base, n)) :
    step s = openFill Config.params base n (s.setPending rest) := by
  simp only [step, h, hi, hsplit]

theorem splitFill_of_not_fill (hi : ∀ base n, i ≠ .fill base n) (cut : Bool) : splitFill cut i = none := by
  cases i with
  | fill base n => exact absurd rfl (hi base n)
  | _ => rfl

/-- A host operation's place in the `FILL` in progress is reached once that many of its sample steps are taken (R69). -/
theorem Issue.reached_eq_true_iff :
    issue.reached job = true ↔ issue.port = .host ∧ ∃ k, issue.cutIn = some k ∧ k ≤ job.index := by
  unfold Issue.reached
  cases issue.cutIn <;> simp

theorem Issue.not_reached (h : issue.port = .audio ∨ issue.cutIn = none ∨ ∃ k, issue.cutIn = some k ∧ job.index < k) :
    issue.reached job = false := by
  rw [← Bool.not_eq_true, Issue.reached_eq_true_iff]
  rintro ⟨hport, k, hcut, hle⟩
  obtain haudio | hnone | ⟨k', hk', hlt⟩ := h
  · rw [hport] at haudio; cases haudio
  · rw [hcut] at hnone; cases hnone
  · cases hcut.symm.trans hk'; omega

/-- While the block runs, an issue whose place is not reached leaves the turn to the `FILL` in progress. -/
theorem turn_of_not_reached (hfill : s.fill = some job) (hpending : s.pending = issue :: rest) (hrun : s.run = true)
    (h : issue.reached job = false) : s.turn = .sample job := by
  rw [turn_of_fill hfill hpending, Issue.entersFill, hrun, h]
  rfl

/-- An issue whose place in the `FILL` in progress is reached, or any while the block is paused, has the turn. -/
theorem step_of_entersFill (hfill : s.fill = some job) (hpending : s.pending = issue :: rest)
    (h : issue.entersFill job s.run = true) (hi : decodePacket issue.port issue.packet = .ok i) :
    step s = exec i (s.setPending rest) :=
  step_of_operation (by rw [turn_of_fill hfill hpending, if_pos h]) hi (splitFill_of_not_cut i)

/-- A `FILL` that a host operation cuts into runs whole or is opened, as `FILL_ATOMIC` says (R69). -/
theorem step_of_cut_fill {base n : Nat} (h : s.turn = .operation issue rest true)
    (hi : decodePacket issue.port issue.packet = .ok (.fill base n)) :
    step s = if Config.fillAtomic then exec (.fill base n) (s.setPending rest)
      else openFill Config.params base n (s.setPending rest) := by
  cases hatomic : Config.fillAtomic with
  | false => exact step_of_opening h hi (by simp [splitFill, hatomic])
  | true => exact step_of_operation h hi (by simp [splitFill, hatomic])

end

/-- Settles O46: the turn of each case, and what the step runs in it. -/
theorem stepRunsTheNextOperation : Obligations.StepRunsTheNextOperation := by
  intro s
  refine ⟨fun hfill hp => step_of_idle (turn_of_idle hfill hp), fun job hfill hp hrun => ?_, fun job hfill hp hrun => ?_,
    fun job issue rest hfill hp hrun h => step_of_sample (turn_of_not_reached hfill hp hrun (Issue.not_reached h)),
    fun issue rest i hp hi => ⟨fun hfill hcut => ?_, ?_, ?_, ?_⟩⟩
  · exact step_of_sample (by rw [turn_of_fill_alone hfill hp, if_pos hrun])
  · exact step_of_idle (by rw [turn_of_fill_alone hfill hp, if_neg (by simp [hrun])])
  · refine step_of_operation (turn_of_issue hfill hp) hi ?_
    cases hnext : nextCuts rest with
    | false => exact splitFill_of_not_cut i
    | true => exact splitFill_of_not_fill (hcut hnext) true
  · rintro hfill hnext base n rfl
    exact step_of_cut_fill (hnext ▸ turn_of_issue hfill hp) hi
  · intro job k hfill hport hcut hle
    refine step_of_entersFill hfill hp ?_ hi
    rw [Issue.entersFill, Issue.reached_eq_true_iff.2 ⟨hport, k, hcut, hle⟩, Bool.or_true]
  · intro job hfill hrun
    exact step_of_entersFill hfill hp (by rw [Issue.entersFill, hrun]; rfl) hi

/-- Settles O47: the placed issue has the turn, and carries the packet the opcode table's bits stand for. -/
theorem placedWordIsRunNext : Obligations.PlacedWordIsRunNext := by
  intro s nbits w i h
  have hdecode := decodePacket_issueOfTable h
  refine ⟨step_of_operation (turn_of_issue rfl rfl) hdecode (splitFill_of_not_cut i), rfl, rfl, ?_⟩
  obtain ⟨-, hport⟩ := decodePacket_ok hdecode
  show (s.run || decide ((issueOfTable nbits w).port = .audio)) = s.run ∨ _
  rw [← hport]
  by_cases haudio : i.port = .audio
  · exact .inr haudio
  · exact .inl (by rw [decide_eq_false haudio, Bool.or_false])

end Sys2Proof.Machine
end

section
/-! SUPPORT. Sample steps read and write nothing of the state but the voices (20_memory.md R62, R70). -/

namespace Sys2Proof.Machine

section
variable {s s' t : State} (hvoice : s'.voice = s.voice)
include hvoice

/-- The bytes of one sample depend on the voices alone. -/
theorem fillVoices_congr {a : Nat} {vs : List (Fin 4)} {m m' : Memory} (h : fillVoices a vs m s = .ok (m', t)) :
    ∃ t', fillVoices a vs m s' = .ok (m', t') := by
  induction vs generalizing m s s' with
  | nil => cases h; exact ⟨s', rfl⟩
  | cons v vs ih =>
    rw [fillVoices] at h ⊢
    rw [hvoice]
    by_cases hactive : (s.voice v).active = true
    · rw [if_pos hactive] at h ⊢
      rcases hsample : playSample (s.voice v) with _ | ⟨x, V⟩ <;> rw [hsample] at h
      · cases h
      · rcases hread : m.read a with _ | b <;> rw [hread] at h
        · cases h
        refine ih (funext fun w => ?_) h
        rw [State.voice_setVoice, State.voice_setVoice, hvoice]
    · rw [if_neg hactive] at h ⊢
      exact ih hvoice h

theorem fillSample_congr {a : Nat} {m m' : Memory} (h : fillSample a m s = .ok (m', t)) :
    fillSample a m s' = .ok (m', s'.advanceVoices voiceOrder) := by
  obtain ⟨t', ht'⟩ := fillVoices_congr hvoice h
  rw [← (fillVoices_next ht').1]
  exact ht'

/-- The bytes of the sample steps of a `FILL` depend on the voices alone. -/
theorem fillSamples_congr {base n : Nat} {m m' : Memory} (h : fillSamples base n m s = .ok (m', t)) :
    fillSamples base n m s' = .ok (m', s'.advanceTimes n) := by
  induction n generalizing m' t with
  | zero => cases h; rfl
  | succ n ih =>
    rw [fillSamples] at h ⊢
    rcases hn : fillSamples base n m s with _ | ⟨m₁, t₁⟩
    · rw [hn] at h; cases h
    · rw [hn] at h
      rw [ih hn]
      refine fillSample_congr (funext fun v => ?_) h
      rw [fillSamples_state hn, State.advanceTimes_voice, State.advanceTimes_voice, hvoice]

end

theorem fillSamples_succ {base n : Nat} {m m' : Memory} {s t : State} (h : fillSamples base (n + 1) m s = .ok (m', t)) :
    ∃ m₁, fillSamples base n m s = .ok (m₁, s.advanceTimes n) ∧
      fillSample (base + n) m₁ (s.advanceTimes n) = .ok (m', s.advanceTimes (n + 1)) := by
  rw [← fillSamples_state h]
  rw [fillSamples] at h
  split at h
  · cases h
  · rename_i m₁ t₁ hn
    obtain rfl := fillSamples_state hn
    exact ⟨m₁, hn, h⟩

/-- A change of the state that neither reads nor writes a voice commutes with the samples of the voices `vs` (R75). -/
theorem State.advanceVoices_comm {f : State → State} (hvoice : ∀ t, (f t).voice = t.voice)
    (hset : ∀ t v V, (f t).setVoice v V = f (t.setVoice v V)) (s : State) (vs : List (Fin 4)) :
    (f s).advanceVoices vs = f (s.advanceVoices vs) := by
  induction vs generalizing s with
  | nil => rfl
  | cons v vs ih => rw [State.advanceVoices_cons, State.advanceVoices_cons, hvoice, hset, ih]

theorem State.advanceVoices_filling (s : State) (w : Memory) (job : FillJob) (vs : List (Fin 4)) :
    (s.filling w job).advanceVoices vs = (s.advanceVoices vs).filling w job :=
  State.advanceVoices_comm (f := (·.filling w job)) (fun _ => rfl) (fun _ _ _ => rfl) s vs

theorem State.advanceTimes_setPending (s : State) (l : List Issue) (n : Nat) :
    (s.setPending l).advanceTimes n = (s.advanceTimes n).setPending l := by
  induction n with
  | zero => rfl
  | succ n ih =>
    rw [State.advanceTimes, ih]
    exact State.advanceVoices_comm (f := (·.setPending l)) (fun _ => rfl) (fun _ _ _ => rfl) (s.advanceTimes n) voiceOrder

end Sys2Proof.Machine
end

section
/-! SUPPORT. The steps of the machine while a `FILL` is in progress (20_memory.md R69): those that no issue disturbs are the sample steps
of the whole `FILL`. -/

namespace Sys2Proof.Machine

/-- While fewer than `k` sample steps of a `FILL` are taken, the issue to come does not take its place in it (R69). -/
def State.Undisturbed (s : State) (k : Nat) : Prop :=
  ∀ issue rest, s.pending = issue :: rest → ∀ job : FillJob, job.index < k → issue.reached job = false

theorem State.Undisturbed.mono {s : State} {k l : Nat} (h : s.Undisturbed k) (hle : l ≤ k) : s.Undisturbed l :=
  fun issue rest hp job hlt => h issue rest hp job (by omega)

theorem State.Undisturbed.of_pending_eq {s t : State} {k : Nat} (h : s.Undisturbed k) (hp : t.pending = s.pending) :
    t.Undisturbed k :=
  fun issue rest hp' => h issue rest (hp.symm.trans hp')

theorem State.undisturbed_of_nil {s : State} (h : s.pending = []) (k : Nat) : s.Undisturbed k := by
  intro issue rest hp
  cases h.symm.trans hp

theorem State.undisturbed_of_not_cut {s : State} (h : nextCuts s.pending = false) (k : Nat) : s.Undisturbed k := by
  intro issue rest hp job _
  rw [hp] at h
  refine Issue.not_reached ?_
  cases hport : issue.port with
  | audio => exact .inl rfl
  | host => exact .inr (.inl (by simpa [nextCuts, Issue.cuts, hport] using h))

theorem State.undisturbed_of_cutIn {s : State} {issue : Issue} {rest : List Issue} {k : Nat} (hp : s.pending = issue :: rest)
    (hcut : issue.cutIn = some k) : s.Undisturbed k := by
  intro issue' rest' hp' job hlt
  cases hp.symm.trans hp'
  exact Issue.not_reached (.inr (.inr ⟨k, hcut, hlt⟩))

theorem stepTimes_succ {n : Nat} {s t : State} (h : stepTimes n s = .next t) : stepTimes (n + 1) s = step t := by
  rw [stepTimes, h]

theorem stepTimes_add {n k : Nat} {s t u : State} (h : stepTimes n s = .next t) (h' : stepTimes k t = .next u) :
    stepTimes (n + k) s = .next u := by
  induction k generalizing u with
  | zero => rw [← h']; exact h
  | succ k ih =>
    rw [stepTimes] at h'
    split at h'
    · rename_i v hv
      exact (stepTimes_succ (ih hv)).trans h'
    · cases h'
    · cases h'

/-- The `FILL` when `k` of its sample steps are taken and have left the bytes `m` (R69). -/
def FillJob.movedTo (job : FillJob) (k : Nat) (m : Memory) : FillJob := { job with index := k, bytes := m }

section
variable {job : FillJob} {w m : Memory} {s t : State}

theorem FillJob.advance_of_lt (h : job.index + 1 < job.length) :
    job.advance m (s.filling w job) = s.filling w (job.movedTo (job.index + 1) m) := if_pos h

theorem FillJob.advance_of_eq (h : job.index + 1 = job.length) :
    job.advance m (s.filling w job) = (s.setBuf (w.deliver job.base job.length m)).setFill none := if_neg (by omega)

theorem turn_filling {k : Nat} (hrun : s.run = true) (hwait : s.Undisturbed k) (hlt : job.index < k) :
    (s.filling w job).turn = .sample job := by
  cases hp : s.pending with
  | nil => exact (turn_of_fill_alone (s := s.filling w job) rfl hp).trans (if_pos hrun)
  | cons issue rest => exact turn_of_not_reached (s := s.filling w job) rfl hp hrun (hwait issue rest hp job hlt)

/-- An issue whose place in the `FILL` in progress is reached has the step (R69). -/
theorem step_filling_reached {issue : Issue} {rest : List Issue} {i : Instr} (hpending : s.pending = issue :: rest)
    (hreached : issue.reached job = true) (hdecode : decodePacket issue.port issue.packet = .ok i) :
    step (s.filling w job) = exec i ((s.setPending rest).filling w job) :=
  step_of_entersFill (s := s.filling w job) rfl hpending (by rw [Issue.entersFill, hreached, Bool.or_true]) hdecode

/-- A step of the machine that no issue disturbs is the next sample step of the `FILL` in progress (R69). -/
theorem step_filling {k : Nat} (hrun : s.run = true) (hwait : s.Undisturbed k) (hlt : job.index < k)
    (h : fillSample (job.base + job.index) job.bytes s = .ok (m, t)) :
    step (s.filling w job) = .next (job.advance m ((s.advanceVoices voiceOrder).filling w job)) := by
  have hsample := fillSample_congr (s := s) (s' := s.filling w job) rfl h
  rw [step_of_sample (turn_filling hrun hwait hlt), stepFill, hsample, State.advanceVoices_filling]

/-- The same, `d` sample steps of the `FILL` being taken since the state `s`. -/
theorem step_filling_movedTo {d : Nat} {m₁ : Memory} (hrun : s.run = true) (hwait : s.Undisturbed (job.index + (d + 1)))
    (h : fillSample (job.base + job.index + d) m₁ (s.advanceTimes d) = .ok (m, t)) :
    step ((s.advanceTimes d).filling w (job.movedTo (job.index + d) m₁)) =
      .next ((job.movedTo (job.index + d) m₁).advance m
        ((s.advanceTimes (d + 1)).filling w (job.movedTo (job.index + d) m₁))) := by
  obtain ⟨hrun', -, -, -, -, hpending'⟩ := s.advanceTimes_frame d
  rw [Nat.add_assoc] at h
  exact step_filling (job := job.movedTo (job.index + d) m₁) (hrun'.trans hrun) (hwait.of_pending_eq hpending')
    (Nat.lt_succ_self (job.index + d)) h

/-- Steps of the machine that no issue disturbs are the sample steps of the `FILL` in progress (R69). -/
theorem stepTimes_filling {d : Nat} (hrun : s.run = true) (hwait : s.Undisturbed (job.index + d))
    (hlt : job.index + d < job.length) (h : fillSamples (job.base + job.index) d job.bytes s = .ok (m, t)) :
    stepTimes d (s.filling w job) = .next ((s.advanceTimes d).filling w (job.movedTo (job.index + d) m)) := by
  induction d generalizing m t with
  | zero => cases h; rfl
  | succ d ih =>
    obtain ⟨m₁, hsteps, hlast⟩ := fillSamples_succ h
    rw [stepTimes_succ (ih (hwait.mono (by omega)) (by omega) hsteps), step_filling_movedTo hrun hwait hlast,
      FillJob.advance_of_lt (job := job.movedTo (job.index + d) m₁) hlt]
    rfl

/-- The steps that are left of a `FILL` in progress, if no issue disturbs them, end it (R62, R69). -/
theorem stepTimes_filling_last {d : Nat} (hrun : s.run = true) (hwait : s.Undisturbed job.length) (hlt : job.index < job.length)
    (hd : job.index + d = job.length) (h : fillSamples (job.base + job.index) d job.bytes s = .ok (m, t)) :
    stepTimes d (s.filling w job) =
      .next (((s.advanceTimes d).setBuf (w.deliver job.base job.length m)).setFill none) := by
  obtain ⟨d, rfl⟩ : ∃ e, d = e + 1 := ⟨d - 1, by omega⟩
  obtain ⟨m₁, hsteps, hlast⟩ := fillSamples_succ h
  rw [stepTimes_succ (stepTimes_filling hrun (hwait.mono (by omega)) (by omega) hsteps),
    step_filling_movedTo hrun (hd ▸ hwait) hlast, FillJob.advance_of_eq (job := job.movedTo (job.index + d) m₁) hd]
  rfl

end

/-- Settles O49: the bytes of the sample steps are those of the whole `FILL`, and its end delivers them over the range that its start
has withdrawn. -/
theorem openedFillEqualsWholeFill : Obligations.OpenedFillEqualsWholeFill := by
  intro s u base n hfill hcuts hn hwl hopen
  have hdefined : s.wavelengthsDefined := fun v hv => hwl v (by simpa [Voice.active] using hv)
  obtain ⟨hrun, howns, ⟨rfl, -⟩ | ⟨-, rfl⟩⟩ := openFill_next hopen
  · exact absurd hn (Nat.lt_irrefl 0)
  obtain ⟨m, hsamples, -⟩ := fillSamples_silence_ok Config.params.silence base n hdefined
  refine ⟨(s.advanceTimes n).deliver base n m, exec_fill_eq_next_iff.2 ⟨hrun, howns, by rw [fillBuffer, hsamples]⟩, ?_⟩
  rw [State.opened, stepTimes_filling_last (job := .opened Config.params base n) hrun (State.undisturbed_of_not_cut hcuts n) hn
    (Nat.zero_add n) hsamples]
  obtain ⟨-, -, hbuf, -, hfill', -⟩ := s.advanceTimes_frame n
  congr 1
  refine State.ext_voice (fun _ => rfl) rfl rfl ?_ rfl (hfill'.trans hfill).symm rfl
  show (s.buf.withdraw base n).deliver base n m = (s.advanceTimes n).buf.deliver base n m
  rw [Memory.deliver_withdraw, hbuf]

end Sys2Proof.Machine
end

section
/-! SUPPORT. A host operation between two sample steps of a `FILL` (20_memory.md R69, R70). -/

namespace Sys2Proof.Machine

/-- The sample steps of a `FILL` over any memory whose bytes in its range are silent leave there what the whole `FILL` leaves in `BUF`. -/
theorem fillSamples_of_exec_fill {base n : Nat} {m : Memory} {s t : State} (h : exec (.fill base n) s = .next t) (hn : 0 < n)
    (hsilent : ∀ j, j < n → m.read (base + j) = some Config.params.silence) :
    ∃ m', fillSamples base n m s = .ok (m', s.advanceTimes n) ∧
      (∀ x, base ≤ x → x < base + n → m'.read x = t.buf.read x) ∧
      (∀ x, (x < base ∨ base + n ≤ x) → m'.read x = m.read x) := by
  obtain ⟨m', hsamples, hin, hout, -⟩ := fillSamples_ok base n (wavelengthsDefined_of_exec_fill h hn) hsilent
  refine ⟨m', hsamples, fun x hx hlt => ?_, hout⟩
  obtain ⟨j, rfl⟩ := Nat.exists_eq_add_of_le hx
  rw [hin j (by omega), (exec_fill_read h).1 j (by omega)]

/-- A whole `FILL` has made its samples, and has changed nothing else but `BUF` (R155). -/
theorem Answers.fill_filling {base n : Nat} {s t : State} (h : Answers s (.fill base n) t) (w : Memory) (job : FillJob) :
    t.filling w job = (s.advanceTimes n).filling w job := by
  cases h
  rfl

section
variable {s a b c : State} {base n k : Nat} {issue : Issue} {i : Instr} {m : Memory}

/-- The bytes of a `FILL` in two parts: the sample steps of both, from one silence write of the whole range, end in the contents that the
two whole `FILL`s leave in `BUF` (R157). -/
theorem fillSamples_two_parts (hk : 0 < k) (hkn : k < n) (hbuf : b.buf = a.buf) (ha : exec (.fill base k) s = .next a)
    (hc : exec (.fill (base + k) (n - k)) b = .next c) :
    ∃ m₁ m₂, fillSamples base k (fillSilence Config.params.silence base n) s = .ok (m₁, s.advanceTimes k) ∧
      fillSamples (base + k) (n - k) m₁ b = .ok (m₂, b.advanceTimes (n - k)) ∧
      ∀ x, (s.buf.deliver base n m₂).read x = c.buf.read x := by
  obtain ⟨m₁, hfirst, hin₁, hout₁⟩ := fillSamples_of_exec_fill (m := fillSilence Config.params.silence base n) ha hk
    (fun j hj => by rw [fillSilence_read, if_pos (by omega)])
  obtain ⟨m₂, hsecond, hin₂, hout₂⟩ := fillSamples_of_exec_fill (m := m₁) hc (by omega)
    (fun j hj => by rw [hout₁ _ (by omega), fillSilence_read, if_pos (by omega)])
  obtain ⟨-, houtA⟩ := exec_fill_read ha
  obtain ⟨-, houtC⟩ := exec_fill_read hc
  refine ⟨m₁, m₂, hfirst, hsecond, fun x => ?_⟩
  rw [Memory.read_deliver]
  by_cases hrange : base ≤ x ∧ x < base + n
  · rw [if_pos hrange, Option.or_none]
    by_cases hpart : x < base + k
    · rw [hout₂ x (.inl hpart), hin₁ x hrange.1 hpart, houtC x (.inl hpart), hbuf]
    · exact hin₂ x (by omega) (by omega)
  · rw [if_neg hrange, hout₂ x (by omega), hout₁ x (by omega), fillSilence_read, if_neg hrange, Option.none_or,
      houtC x (by omega), hbuf, houtA x (by omega)]

/-- A `FILL` opened in `s` runs up to a host operation's place in it, and the operation answers there as it does after the `FILL` of
the bytes before that place, but for `BUF` and the `FILL` in progress (R69, R70). -/
theorem stepTimes_opened_cut (hpending : s.pending = [issue]) (hport : issue.port = .host) (hcut : issue.cutIn = some k)
    (hkn : k < n) (hdecode : decodePacket issue.port issue.packet = .ok i)
    (ha : exec (.fill base k) (s.setPending []) = .next a) (hb : exec i a = .next b)
    (hsamples : fillSamples base k (fillSilence Config.params.silence base n) (s.setPending []) =
      .ok (m, (s.setPending []).advanceTimes k)) :
    stepTimes (k + 1) (s.opened Config.params base n) =
      .next (b.filling (s.buf.withdraw base n) ((FillJob.opened Config.params base n).movedTo k m)) := by
  obtain ⟨hrun, -⟩ := exec_fill_eq_next_iff.1 ha
  have hhost : i.port = .host := (decodePacket_ok hdecode).2.trans hport
  have hsteps := fillSamples_congr (s := s.setPending []) (s' := s) rfl hsamples
  have hfirst := stepTimes_filling (s := s) (job := .opened Config.params base n) (w := s.buf.withdraw base n) hrun
    ((Nat.zero_add k).symm ▸ State.undisturbed_of_cutIn hpending hcut) ((Nat.zero_add k).symm ▸ hkn) hsteps
  rw [show (FillJob.opened Config.params base n).index + k = k from Nat.zero_add k] at hfirst
  have hreached : issue.reached ((FillJob.opened Config.params base n).movedTo k m) = true :=
    Issue.reached_eq_true_iff.2 ⟨hport, k, hcut, le_rfl⟩
  obtain ⟨-, -, -, -, -, hpending'⟩ := s.advanceTimes_frame k
  rw [State.opened, stepTimes_succ hfirst, step_filling_reached (hpending'.trans hpending) hreached hdecode,
    ← State.advanceTimes_setPending, ← (exec_answers ha).fill_filling]
  exact ((exec_answers hb).filling hhost _ _).exec_eq hhost

end

/-- Settles O50: the two parts of the `FILL` are its sample steps before and after the operation. -/
theorem hostOperationFallsBetweenSamples : Obligations.HostOperationFallsBetweenSamples := by
  intro s a b c u base n k issue i hfill hpending hport hcut hk hkn hdecode ha hb hrun hc hopen
  obtain ⟨-, -, ⟨rfl, -⟩ | ⟨-, rfl⟩⟩ := openFill_next hopen
  · exact absurd hkn (Nat.not_lt_zero k)
  have hbuf := (exec_answers hb).host_buf ((decodePacket_ok hdecode).2.trans hport)
  obtain ⟨-, -, hpendingA⟩ := (exec_answers ha).frame
  obtain ⟨-, -, hpendingB⟩ := (exec_answers hb).frame
  have hpendingB : b.pending = [] := hpendingB.trans hpendingA
  obtain ⟨-, -, -, -, -, hpending'⟩ := b.advanceTimes_frame (n - k)
  obtain ⟨m₁, m₂, hfirst, hsecond, hread⟩ := fillSamples_two_parts hk hkn hbuf ha hc
  have hsteps := stepTimes_add (stepTimes_opened_cut hpending hport hcut hkn hdecode ha hb hfirst)
    (stepTimes_filling_last (d := n - k) (job := (FillJob.opened Config.params base n).movedTo k m₁) hrun
      (State.undisturbed_of_nil hpendingB n) hkn (Nat.add_sub_cancel' hkn.le) hsecond)
  rw [show k + 1 + (n - k) = n + 1 by omega] at hsteps
  refine ⟨_, hsteps, ?_, ?_, ?_, rfl, hpending'.trans hpendingB, fun x => ?_⟩
  case refine_4 =>
    rw [← hread x]
    exact congrArg (Memory.read · x) (s.buf.deliver_withdraw base n m₂)
  all_goals
    cases exec_answers hc
    rfl

end Sys2Proof.Machine
end

section
/-! SUPPORT. The decoder by opcode (30_encoding.md R83, R84): an operation is decoded exactly where `W0` is its opcode. -/

namespace Sys2Proof

section
variable {p : Port} {k : Packet}

theorem decodePacket_play (h : k.w0 = 0x01#32) :
    decodePacket p k = onPort .host p (.play (sext32 k.w1) (sext32 k.w2) (sext32 k.w3) (sext32 k.w4) (sext32 k.w5)
      (sext32 k.w6) (sext32 k.w7)) := by
  rw [decodePacket, h]; rfl

theorem decodePacket_stop (h : k.w0 = 0x02#32) : decodePacket p k = onPort .host p (.stop (sext32 k.w1)) := by
  rw [decodePacket, h]; rfl

theorem decodePacket_resume (h : k.w0 = 0x03#32) : decodePacket p k = onPort .host p .resume := by
  rw [decodePacket, h]; rfl

theorem decodePacket_pause (h : k.w0 = 0x04#32) : decodePacket p k = onPort .host p .pause := by
  rw [decodePacket, h]; rfl

theorem decodePacket_fill (h : k.w0 = 0x10#32) :
    decodePacket p k = onPort .audio p (.fill (zext32 k.w1) (zext32 k.w2)) := by
  rw [decodePacket, h]; rfl

theorem decodePacket_tick (h : k.w0 = 0x11#32) : decodePacket p k = onPort .audio p .tick := by
  rw [decodePacket, h]; rfl

/-- `W0` of a packet that decodes is the opcode of its operation (R83). -/
theorem decodePacket_ok_opcode {i : Instr} (h : decodePacket p k = .ok i) : k.w0 = i.opcode := by
  unfold decodePacket at h
  dsimp only at h
  split at h
  case isTrue => cases h
  rename_i hupper
  have hw0 : k.w0.extractLsb' 8 24 ++ k.w0.extractLsb' 0 8 = k.w0 := BitVec.extractLsb'_append_extractLsb'
  rw [not_not.1 hupper] at hw0
  repeat' split at h
  case isFalse => cases h
  all_goals
    rename_i hop
    obtain ⟨-, rfl⟩ := onPort_eq_ok_iff.1 h
    rw [hop] at hw0
    exact hw0.symm

end

/-! ### Packets that do not decode (R85) -/

/-- The opcodes of the operations of each port (R83). -/
theorem Instr.opcode_listed (i : Instr) :
    i.opcode.toNat < 256 ∧ (i.port = .host → i.opcode.toNat ∈ [0x01, 0x02, 0x03, 0x04]) ∧
      (i.port = .audio → i.opcode.toNat ∈ [0x10, 0x11]) := by
  cases i <;> simp [Instr.opcode, Instr.port]

/-- A packet that is RESERVED on the port it arrived on does not decode (R85). -/
theorem decodePacket_reserved {p : Port} {k : Packet}
    (h : 256 ≤ k.w0.toNat ∨ (p = .host ∧ k.w0.toNat ∉ [0x01, 0x02, 0x03, 0x04]) ∨ (p = .audio ∧ k.w0.toNat ∉ [0x10, 0x11])) :
    ∃ why, decodePacket p k = .error why := by
  cases hd : decodePacket p k with
  | error why => exact ⟨why, rfl⟩
  | ok i =>
    obtain ⟨-, rfl⟩ := decodePacket_ok hd
    obtain ⟨hlt, hhost, haudio⟩ := i.opcode_listed
    rw [decodePacket_ok_opcode hd] at h
    obtain hge | ⟨hp, hnot⟩ | ⟨hp, hnot⟩ := h
    · exact absurd hlt (Nat.not_lt.2 hge)
    · exact absurd (hhost hp) hnot
    · exact absurd (haudio hp) hnot

/-! ### The decoder on encoded packets -/

theorem zext32_ofNat {n : Nat} (h : IsU32 n) : zext32 (BitVec.ofNat 32 n) = n := Nat.mod_eq_of_lt h

/-- The packet of a well-formed operation decodes to that operation, where the port is the operation's own. -/
theorem decodePacket_encode {i : Instr} (p : Port) (h : i.wellFormed = true) : decodePacket p (encode i) = onPort i.port p i := by
  cases i with
  | play =>
    simp only [Instr.wellFormed, Bool.and_eq_true, decide_eq_true_eq] at h
    obtain ⟨⟨⟨⟨⟨⟨hvoice, hhz⟩, hdur⟩, hvol⟩, hfx⟩, hlevel⟩, hlow⟩ := h
    refine (decodePacket_play rfl).trans ?_
    simp only [encode, Instr.operandWords, Instr.port, sext32_wordOfInt hvoice, sext32_wordOfInt hhz, sext32_wordOfInt hdur,
      sext32_wordOfInt hvol, sext32_wordOfInt hfx, sext32_wordOfInt hlevel, sext32_wordOfInt hlow]
  | stop =>
    simp only [Instr.wellFormed, decide_eq_true_eq] at h
    refine (decodePacket_stop rfl).trans ?_
    simp only [encode, Instr.operandWords, Instr.port, sext32_wordOfInt h]
  | resume => exact decodePacket_resume rfl
  | pause => exact decodePacket_pause rfl
  | fill =>
    simp only [Instr.wellFormed, Bool.and_eq_true, decide_eq_true_eq] at h
    obtain ⟨hbase, hlength⟩ := h
    refine (decodePacket_fill rfl).trans ?_
    simp only [encode, Instr.operandWords, Instr.port, zext32_ofNat hbase, zext32_ofNat hlength]
  | tick => exact decodePacket_tick rfl

/-- Settles O1: the port is the only thing that can keep an encoded operation from being decoded. -/
theorem decodeEncodeRoundTrip : Obligations.DecodeEncodeRoundTrip := fun _ p h => decodePacket_encode p h

/-- Settles O3: the opcode decides which of the six operations is decoded. -/
theorem decodeFollowsOpcodeMap : Obligations.DecodeFollowsOpcodeMap := by
  intro p k i
  constructor
  · intro h
    have hop := decodePacket_ok_opcode h
    have hcode := congrArg BitVec.toNat hop
    cases i with
    | play =>
      rw [decodePacket_play hop, onPort_eq_ok_iff] at h
      exact .inl ⟨h.1, hcode, h.2.symm⟩
    | stop =>
      rw [decodePacket_stop hop, onPort_eq_ok_iff] at h
      exact .inr (.inl ⟨h.1, hcode, h.2.symm⟩)
    | resume =>
      rw [decodePacket_resume hop, onPort_eq_ok_iff] at h
      exact .inr (.inr (.inl ⟨h.1, hcode, h.2.symm⟩))
    | pause =>
      rw [decodePacket_pause hop, onPort_eq_ok_iff] at h
      exact .inr (.inr (.inr (.inl ⟨h.1, hcode, h.2.symm⟩)))
    | fill =>
      rw [decodePacket_fill hop, onPort_eq_ok_iff] at h
      exact .inr (.inr (.inr (.inr (.inl ⟨h.1, hcode, h.2.symm⟩))))
    | tick =>
      rw [decodePacket_tick hop, onPort_eq_ok_iff] at h
      exact .inr (.inr (.inr (.inr (.inr ⟨h.1, hcode, h.2.symm⟩))))
  · rintro (⟨rfl, hcode, rfl⟩ | ⟨rfl, hcode, rfl⟩ | ⟨rfl, hcode, rfl⟩ | ⟨rfl, hcode, rfl⟩ | ⟨rfl, hcode, rfl⟩ |
      ⟨rfl, hcode, rfl⟩)
    · exact decodePacket_play (BitVec.eq_of_toNat_eq hcode)
    · exact decodePacket_stop (BitVec.eq_of_toNat_eq hcode)
    · exact decodePacket_resume (BitVec.eq_of_toNat_eq hcode)
    · exact decodePacket_pause (BitVec.eq_of_toNat_eq hcode)
    · exact decodePacket_fill (BitVec.eq_of_toNat_eq hcode)
    · exact decodePacket_tick (BitVec.eq_of_toNat_eq hcode)

/-- Settles O4: what the decoder answers for each of these opcodes names no other word. -/
theorem ignoredWordsAreNotRead : Obligations.IgnoredWordsAreNotRead := by
  intro p k l hw0
  refine ⟨?_, fun h hw1 => ?_, fun h hw1 hw2 => ?_⟩
  · rintro (h | h | h)
    · rw [decodePacket_resume h, decodePacket_resume (hw0 ▸ h)]
    · rw [decodePacket_pause h, decodePacket_pause (hw0 ▸ h)]
    · rw [decodePacket_tick h, decodePacket_tick (hw0 ▸ h)]
  · rw [decodePacket_stop h, decodePacket_stop (hw0 ▸ h), hw1]
  · rw [decodePacket_fill h, decodePacket_fill (hw0 ▸ h), hw1, hw2]

end Sys2Proof
end

section
/-! SUPPORT. The step on a reserved packet (30_encoding.md R85) and on a `PLAY` that changes nothing (43_voice_control.md R170). -/

namespace Sys2Proof.Machine

theorem step_of_reserved {s : State} {issue : Issue} {rest : List Issue} {cut : Bool} {why : Reject}
    (h : s.turn = .operation issue rest cut) (hd : decodePacket issue.port issue.packet = .error why) :
    step s = .refused (.reservedPacket why) := by
  simp only [step, h, hd]

/-- Settles O5: a reserved packet does not decode, and a `PLAY` that does is judged by validation. -/
theorem reservedPacketIsRefused : Obligations.ReservedPacketIsRefused := by
  intro s issue rest cut hturn
  refine ⟨fun hreserved => ?_, fun hport hcode hrange => ?_⟩
  · obtain ⟨why, hd⟩ := decodePacket_reserved hreserved
    exact ⟨why, step_of_reserved hturn hd⟩
  · have hd := decodePacket_play (p := issue.port) (BitVec.eq_of_toNat_eq hcode : issue.packet.w0 = 0x01#32)
    rw [onPort, if_pos hport] at hd
    rw [step_of_operation hturn hd rfl]
    exact (Answers.playRejected ((playTarget_eq_none_iff ..).2 hrange)).exec_eq rfl

end Sys2Proof.Machine
end

section
/-! SUPPORT. The bytes of a packet (30_encoding.md R89): where each byte stands, and that no other bytes are read as the packet. -/

namespace Sys2Proof

theorem bytesOfWord_getElem? (w : Word) {j : Nat} (hj : j < 4) :
    (bytesOfWord w)[j]? = some (BitVec.ofNat 8 (w.toNat / 256 ^ j)) := by
  have hbyte : (bytesOfWord w)[j]? = some (w.extractLsb' (8 * j) 8) := by interval_cases j <;> rfl
  rw [hbyte, BitVec.extractLsb', Nat.shiftRight_eq_div_pow, Nat.pow_mul]

/-- Byte `4 n + j` of serialised words is byte `j` of word `n`. -/
theorem flatMap_bytesOfWord_getElem? (ws : List Word) (n : Nat) {j : Nat} (hj : j < 4) :
    (ws.flatMap bytesOfWord)[4 * n + j]? = ws[n]?.bind fun w => (bytesOfWord w)[j]? := by
  induction ws generalizing n with
  | nil => rfl
  | cons w ws ih =>
    rw [List.flatMap_cons]
    cases n with
    | zero =>
      rw [Nat.mul_zero, Nat.zero_add]
      exact List.getElem?_append_left hj
    | succ n =>
      have hindex : 4 * (n + 1) + j = (bytesOfWord w).length + (4 * n + j) := by
        rw [show (bytesOfWord w).length = 4 from rfl]; omega
      rw [hindex, List.getElem?_append_right (Nat.le_add_right ..), Nat.add_sub_cancel_left, ih, List.getElem?_cons_succ]

theorem bytesOfWord_wordOfBytes (b0 b1 b2 b3 : Byte) : bytesOfWord (wordOfBytes b0 b1 b2 b3) = [b0, b1, b2, b3] := by
  have h₀ : (wordOfBytes b0 b1 b2 b3).extractLsb' 0 8 = b0 := BitVec.extractLsb'_append_eq_right
  have h₁ : (wordOfBytes b0 b1 b2 b3).extractLsb' 8 8 = b1 :=
    (BitVec.extractLsb'_append_eq_of_le (w := 8) (by decide)).trans BitVec.extractLsb'_append_eq_right
  have h₂ : (wordOfBytes b0 b1 b2 b3).extractLsb' 16 8 = b2 :=
    (BitVec.extractLsb'_append_eq_of_le (w := 8) (by decide)).trans
      ((BitVec.extractLsb'_append_eq_of_le (w := 8) (by decide)).trans BitVec.extractLsb'_append_eq_right)
  have h₃ : (wordOfBytes b0 b1 b2 b3).extractLsb' 24 8 = b3 :=
    (BitVec.extractLsb'_append_eq_of_le (w := 8) (by decide)).trans
      ((BitVec.extractLsb'_append_eq_of_le (w := 8) (by decide)).trans BitVec.extractLsb'_append_eq_left)
  rw [bytesOfWord, h₀, h₁, h₂, h₃]

theorem takeWord_eq_some {bytes rest : List Byte} {w : Word} (h : takeWord bytes = some (w, rest)) :
    bytes = bytesOfWord w ++ rest := by
  unfold takeWord at h
  split at h
  · cases h
    rw [bytesOfWord_wordOfBytes]
    rfl
  · cases h

/-- Bytes that are read as words are those words serialised. -/
theorem takeWords_eq_some {n : Nat} {bytes : List Byte} {ws : List Word} (h : takeWords n bytes = some ws) :
    bytes = ws.flatMap bytesOfWord := by
  induction n generalizing bytes ws with
  | zero =>
    cases bytes with
    | nil => cases h; rfl
    | cons => cases h
  | succ n ih =>
    rw [takeWords] at h
    split at h
    · cases h
    · rename_i w rest hw
      split at h
      · cases h
      · rename_i ws' hws
        cases h
        rw [takeWord_eq_some hw, ih hws, List.flatMap_cons]

theorem packetOfWords_eq_some {ws : List Word} {k : Packet} (h : packetOfWords ws = some k) : ws = k.words := by
  unfold packetOfWords at h
  split at h
  · cases h; rfl
  · cases h

theorem packetOfBytes_eq_some_iff {bytes : List Byte} {k : Packet} : packetOfBytes bytes = some k ↔ bytes = k.bytes := by
  constructor
  · intro h
    unfold packetOfBytes at h
    split at h
    · cases h
    · rename_i ws hws
      rw [takeWords_eq_some hws, packetOfWords_eq_some h, Packet.bytes]
  · rintro rfl
    exact packetOfBytes_bytes k

/-- Settles O2: the place of each byte, and the bytes that are read as the packet. -/
theorem serialisedPacketRoundTrip : Obligations.SerialisedPacketRoundTrip := by
  refine fun k => ⟨rfl, fun n j hn hj => ?_, fun _ => packetOfBytes_eq_some_iff⟩
  have hword : k.words[n]? = some (k.words.getD n 0) := by
    have hlength : n < k.words.length := hn
    rw [List.getD_eq_getElem k.words 0 hlength, List.getElem?_eq_getElem hlength]
  rw [Packet.bytes, flatMap_bytesOfWord_getElem? k.words n hj, hword]
  exact bytesOfWord_getElem? _ hj

end Sys2Proof
end

section
/-! SUPPORT. The square wave and its gate (40_generator.md R111 to R113), over the integers and over the positions of a cycle. -/

namespace Sys2Proof.Machine

/-! ### The gate (R112) -/

theorem gated_of_nonpos (phase : Nat) {lvl : Int} (h : lvl ≤ 0) : gated phase lvl = false := by
  simp [gated, Int.not_lt.2 h]

theorem gated_natCast (phase : Nat) {lvl : Nat} (h : 0 < lvl) : gated phase lvl = decide (phase / lvl % 2 = 1) := by
  simp [gated, h]

theorem gated_iff (phase : Nat) (lvl : Int) : gated phase lvl = true ↔ 0 < lvl ∧ (phase : Int) / lvl % 2 = 1 := by
  rcases le_or_gt lvl 0 with hlvl | hlvl
  · simp [gated_of_nonpos phase hlvl, Int.not_lt.2 hlvl]
  · lift lvl to Nat using hlvl.le
    rw [gated_natCast phase (Int.natCast_pos.1 hlvl), decide_eq_true_iff, and_iff_right hlvl]
    norm_cast

/-- Position `r` of stretch `n`, a stretch being `lvl` samples, is muted exactly where `n` is odd. -/
theorem gated_stretch (n : Nat) {lvl r : Nat} (h : r < lvl) : gated (lvl * n + r) lvl = decide (n % 2 = 1) := by
  rw [gated_natCast _ (Nat.zero_lt_of_lt h), Nat.mul_add_div (Nat.zero_lt_of_lt h), Nat.div_eq_of_lt h, Nat.add_zero]

/-- Settles O19: an open stretch has an even number and a muted one an odd number. -/
theorem gateAlternatesEveryLevelSamples : Obligations.GateAlternatesEveryLevelSamples := by
  refine ⟨fun lvl q r hr => ⟨?_, ?_⟩, fun phase lvl => gated_of_nonpos phase⟩
  · rw [show 2 * lvl * q + r = lvl * (2 * q) + r by ring, gated_stretch _ hr]
    exact decide_eq_false (by omega)
  · rw [show 2 * lvl * q + lvl + r = lvl * (2 * q + 1) + r by ring, gated_stretch _ hr]
    exact decide_eq_true (by omega)

/-! ### The square wave (R111) -/

theorem square_add_wavelength (p wl : Nat) (vol : Int) : square (p + wl) wl vol = square p wl vol := by
  rw [square, Nat.add_mod_right, ← square]

theorem square_eq_vol_iff {vol : Int} (h : 0 < vol) (p wl : Nat) : square p wl vol = vol ↔ p % wl < wl / 2 := by
  unfold square
  split <;> omega

/-- The wave has no third value. -/
theorem square_eq_neg_vol_iff {vol : Int} (h : 0 < vol) (p wl : Nat) : square p wl vol = -vol ↔ ¬square p wl vol = vol := by
  unfold square
  split <;> omega

/-- The high samples of a cycle are its first `wl div 2`. -/
theorem countP_square_high (wl : Nat) {vol : Int} (h : 0 < vol) :
    (List.range wl).countP (fun p => square p wl vol == vol) = wl / 2 := by
  have hhigh : ∀ p < wl, (square p wl vol = vol ↔ p < wl / 2) := fun p hp => by
    rw [square_eq_vol_iff h, Nat.mod_eq_of_lt hp]
  calc (List.range wl).countP (fun p => square p wl vol == vol)
      = Nat.count (· < wl / 2) wl :=
        List.countP_congr fun p hp => by simpa using hhigh p (List.mem_range.1 hp)
    _ = Nat.count (· < wl / 2) (wl / 2 + (wl - wl / 2)) := by rw [Nat.add_sub_of_le (Nat.div_le_self ..)]
    _ = wl / 2 := by
        rw [Nat.count_add, Nat.count_of_forall fun _ hp => hp, Nat.count_of_forall_not fun p _ => by omega, Nat.add_zero]

/-- The low samples of a cycle are the ones that are not high. -/
theorem countP_square_low (wl : Nat) {vol : Int} (h : 0 < vol) :
    (List.range wl).countP (fun p => square p wl vol == -vol) = wl - wl / 2 := by
  have hlow : (List.range wl).countP (fun p => square p wl vol == -vol) =
      (List.range wl).countP (fun p => decide ¬(square p wl vol == vol) = true) :=
    List.countP_congr fun p _ => by simpa using square_eq_neg_vol_iff h p wl
  have hsum := List.length_eq_countP_add_countP (fun p => square p wl vol == vol) (l := List.range wl)
  rw [List.length_range, countP_square_high wl h, ← hlow] at hsum
  omega

/-- Settles O20: the high samples are counted, and the low ones are the rest. -/
theorem squareWaveDutyCycle : Obligations.SquareWaveDutyCycle :=
  fun wl vol _ hvol => ⟨fun p => square_add_wavelength p wl vol, countP_square_high wl hvol, countP_square_low wl hvol⟩

/-! ### The whole of `SAMPLE` (R113) -/

theorem square_toNat (phase : Nat) {wl : Int} (h : 0 ≤ wl) (vol : Int) :
    square phase wl.toNat vol = if (phase : Int) % wl < wl / 2 then vol else -vol := by
  lift wl to Nat using h
  rw [square, Int.toNat_natCast]
  norm_cast

theorem sample_of_pos (phase vol lvl : Word) {wl : Word} (h : 0 < sext32 wl) :
    sample phase wl vol lvl =
      some (if gated (zext32 phase) (sext32 lvl) then 0 else square (zext32 phase) (sext32 wl).toNat (sext32 vol)) := by
  rw [sample, if_neg (Int.not_le.2 h), apply_ite some]

/-- Settles O18: the gate and the square wave over the integers. -/
theorem sampleIsTheGatedSquare : Obligations.SampleIsTheGatedSquare := by
  refine fun phase wl vol lvl => ⟨(sample_eq_none_iff phase wl vol lvl).2, fun (hwl : 0 < sext32 wl) => ?_⟩
  rw [sample_of_pos phase vol lvl hwl, square_toNat _ hwl.le, if_congr (gated_iff _ _) rfl rfl]
  rfl

end Sys2Proof.Machine
end

section
/-! SUPPORT. The envelope over the integers (41_envelope.md R130 to R137): where a transition takes the level and the direction, and the
ramps that repeated transitions climb and fall. -/

namespace Sys2Proof.Machine

theorem Direction.toInt_ascending : Direction.ascending.toInt = 1 := rfl
theorem Direction.toInt_descending : Direction.descending.toInt = -1 := rfl

theorem wordOfInt_sext32 (w : Word) : wordOfInt (sext32 w) = w := BitVec.ofInt_toInt

/-- The voice with the integer `x` as its current level and the direction `d`: the two fields the envelope writes (R135). -/
def Voice.withEnv (V : Voice) (x : Int) (d : Direction) : Voice := { V with cur := wordOfInt x, dir := d }

/-- The level and the direction to which a transition takes `V` from the level `x` and the direction `d` (R131 to R134), before the
level is stored in a word. -/
def Voice.envTarget (V : Voice) (x : Int) (d : Direction) : Int × Direction :=
  match V.fx with
  | .none => (x, d)
  | .fixed => (x, d)
  | .up => (if x - 1 ≤ 1 then sext32 V.level else x - 1, d)
  | .down => (if sext32 V.level ≤ x + 1 then 1 else x + 1, d)
  | .bounce =>
    if x + d.toInt < sext32 V.low then (sext32 V.low + 2, .ascending)
    else if sext32 V.level < x + d.toInt then (sext32 V.level - 2, .descending)
    else (x + d.toInt, d)

section
variable (V : Voice) (x y : Int) (d e : Direction)

@[simp] theorem Voice.withEnv_dir : (V.withEnv x d).dir = d := rfl
@[simp] theorem Voice.withEnv_withEnv : (V.withEnv x d).withEnv y e = V.withEnv y e := rfl
@[simp] theorem Voice.withEnv_envTarget : (V.withEnv x d).envTarget y e = V.envTarget y e := rfl

theorem Voice.withEnv_self : V.withEnv (sext32 V.cur) V.dir = V := by
  rw [Voice.withEnv, wordOfInt_sext32]

end

section
variable {V : Voice} {x : Int} {d : Direction}

theorem Voice.withEnv_of_eq (hcur : sext32 V.cur = x) : V.withEnv x V.dir = V := by
  rw [← hcur, Voice.withEnv_self]

theorem Voice.withEnv_cur (hx : IsInt32 x) : sext32 (V.withEnv x d).cur = x := sext32_wordOfInt hx

theorem Voice.envTarget_up (hfx : V.fx = .up) : V.envTarget x d = (if x - 1 ≤ 1 then sext32 V.level else x - 1, d) := by
  rw [Voice.envTarget, hfx]

theorem Voice.envTarget_down (hfx : V.fx = .down) : V.envTarget x d = (if sext32 V.level ≤ x + 1 then 1 else x + 1, d) := by
  rw [Voice.envTarget, hfx]

theorem Voice.envTarget_bounce (hfx : V.fx = .bounce) :
    V.envTarget x d =
      if x + d.toInt < sext32 V.low then (sext32 V.low + 2, .ascending)
      else if sext32 V.level < x + d.toInt then (sext32 V.level - 2, .descending)
      else (x + d.toInt, d) := by
  rw [Voice.envTarget, hfx]

/-- BOUNCE turns at the bottom (R134). -/
theorem Voice.envTarget_bottom (hfx : V.fx = .bounce) (h : x + d.toInt < sext32 V.low) :
    V.envTarget x d = (sext32 V.low + 2, .ascending) := by
  rw [Voice.envTarget_bounce hfx, if_pos h]

/-- BOUNCE turns at the top; the bottom is tested first (R134). -/
theorem Voice.envTarget_top (hfx : V.fx = .bounce) (hlow : sext32 V.low ≤ x + d.toInt) (h : sext32 V.level < x + d.toInt) :
    V.envTarget x d = (sext32 V.level - 2, .descending) := by
  rw [Voice.envTarget_bounce hfx, if_neg (by omega), if_pos h]

/-- BOUNCE moves one step inside its interval (R134). -/
theorem Voice.envTarget_between (hfx : V.fx = .bounce) (hlow : sext32 V.low ≤ x + d.toInt) (h : x + d.toInt ≤ sext32 V.level) :
    V.envTarget x d = (x + d.toInt, d) := by
  rw [Voice.envTarget_bounce hfx, if_neg (by omega), if_neg (by omega)]

/-- The word of a transition's level holds that level; only BOUNCE's snap values can leave `int32`. -/
theorem Voice.envTarget_isInt32 (hx : IsInt32 x)
    (hsnap : V.fx = .bounce → sext32 V.low + 2 ≤ 2147483647 ∧ -2147483648 ≤ sext32 V.level - 2) :
    IsInt32 (V.envTarget x d).1 := by
  have hlevel := isInt32_sext32 V.level
  have hlow := isInt32_sext32 V.low
  unfold Voice.envTarget
  cases hfx : V.fx with
  | none | fixed => exact hx
  | up | down => dsimp only; split <;> omega
  | bounce =>
    have := hsnap hfx
    dsimp only
    split
    · omega
    · split <;> omega

end

/-- A transition writes the level and the direction of its target and nothing else (R131 to R135). -/
theorem envTransition_eq (V : Voice) :
    envTransition V = V.withEnv (V.envTarget (sext32 V.cur) V.dir).1 (V.envTarget (sext32 V.cur) V.dir).2 := by
  have hone : (1 : Word) = wordOfInt 1 := by decide
  unfold envTransition Voice.envTarget
  cases V.fx with
  | none | fixed => exact V.withEnv_self.symm
  | up =>
    unfold upTransition
    dsimp only
    split <;> simp only [Voice.withEnv, wordOfInt_sext32]
  | down =>
    unfold downTransition
    dsimp only
    split <;> simp only [Voice.withEnv, hone]
  | bounce =>
    unfold bounceTransition
    dsimp only
    split
    · rfl
    · split <;> rfl

theorem envTransition_withEnv {V : Voice} {x y : Int} {d e : Direction} (hx : IsInt32 x) (h : V.envTarget x d = (y, e)) :
    envTransition (V.withEnv x d) = V.withEnv y e := by
  rw [envTransition_eq, Voice.withEnv_cur hx, Voice.withEnv_dir, Voice.withEnv_envTarget, h, Voice.withEnv_withEnv]

/-- A ramp: while every transition moves the level by `s` and keeps the direction, `n` transitions move it by `s * n`. -/
theorem iterate_envTransition_ramp {V : Voice} {x : Int} {d : Direction} {n : Nat} (s : Int)
    (hrange : ∀ k : Nat, k < n → IsInt32 (x + s * k))
    (hstep : ∀ k : Nat, k < n → V.envTarget (x + s * k) d = (x + s * k + s, d)) :
    envTransition^[n] (V.withEnv x d) = V.withEnv (x + s * n) d := by
  induction n with
  | zero => simp
  | succ n ih =>
    rw [Function.iterate_succ_apply', ih (fun k hk => hrange k (by omega)) (fun k hk => hstep k (by omega)),
      envTransition_withEnv (hrange n (by omega)) (hstep n (by omega)), Nat.cast_succ, mul_add_one, add_assoc]

/-! ### One transition and the whole of `ENV_STEP` (R135) -/

section
variable {V : Voice}

theorem envTransition_cur (hsnap : V.fx = .bounce → sext32 V.low + 2 ≤ 2147483647 ∧ -2147483648 ≤ sext32 V.level - 2) :
    sext32 (envTransition V).cur = (V.envTarget (sext32 V.cur) V.dir).1 := by
  rw [envTransition_eq, Voice.withEnv_cur (Voice.envTarget_isInt32 (isInt32_sext32 V.cur) hsnap)]

theorem envTransition_cur_up (hfx : V.fx = .up) :
    sext32 (envTransition V).cur = if sext32 V.cur - 1 ≤ 1 then sext32 V.level else sext32 V.cur - 1 := by
  rw [envTransition_cur (by simp [hfx]), Voice.envTarget_up hfx]

theorem envTransition_cur_down (hfx : V.fx = .down) :
    sext32 (envTransition V).cur = if sext32 V.level ≤ sext32 V.cur + 1 then 1 else sext32 V.cur + 1 := by
  rw [envTransition_cur (by simp [hfx]), Voice.envTarget_down hfx]

/-- Where BOUNCE's snap values are `int32`, the words hold the target. -/
theorem envTransition_of_target {y : Int} {e : Direction}
    (hsnap : sext32 V.low + 2 ≤ 2147483647 ∧ -2147483648 ≤ sext32 V.level - 2)
    (h : V.envTarget (sext32 V.cur) V.dir = (y, e)) :
    sext32 (envTransition V).cur = y ∧ (envTransition V).dir = e :=
  ⟨by rw [envTransition_cur fun _ => hsnap, h], by rw [envTransition_eq, h, Voice.withEnv_dir]⟩

theorem envTransition_of_noEffect (hfx : V.fx = .none ∨ V.fx = .fixed) : envTransition V = V := by
  rcases hfx with hfx | hfx <;> simp only [envTransition, hfx]

theorem atBoundary_iff (hwl : 0 < sext32 V.wl) : atBoundary V = true ↔ (V.phase.toNat : Int) % sext32 V.wl = 0 := by
  rw [atBoundary, decide_eq_true_iff]
  lift sext32 V.wl to Nat using hwl.le with wl
  rw [Int.toNat_natCast, zext32]
  norm_cast

theorem envStep_of_nonpos (hwl : sext32 V.wl ≤ 0) : envStep V = none := if_pos hwl

theorem envStep_of_pos (hwl : 0 < sext32 V.wl) :
    envStep V = some (if (V.phase.toNat : Int) % sext32 V.wl = 0 then envTransition V else V) := by
  rw [envStep, if_neg (by omega), if_congr (atBoundary_iff hwl) rfl rfl, apply_ite some]

end

/-- Settles O21: at a boundary the step is the transition, whose level and direction are its target's. -/
theorem envStepFollowsItsTransitions : Obligations.EnvStepFollowsItsTransitions := by
  refine fun V hlow hlevel => ⟨envStep_of_nonpos, fun hwl hphase => ?_, fun hwl hphase => ⟨envTransition V, ?_,
    envTransition_frame V, envTransition_of_noEffect, fun hfx => ?_, fun hfx => ?_, fun hfx => ?_⟩⟩
  · exact (envStep_of_pos hwl).trans (congrArg some (if_neg hphase))
  · exact (envStep_of_pos hwl).trans (congrArg some (if_pos hphase))
  · exact ⟨envTransition_dir (by simp [hfx]), envTransition_cur_up hfx⟩
  · exact ⟨envTransition_dir (by simp [hfx]), envTransition_cur_down hfx⟩
  · have hwords {y : Int} {e : Direction} := envTransition_of_target (V := V) (y := y) (e := e) ⟨hlow, hlevel⟩
    exact ⟨fun h => hwords (Voice.envTarget_bottom hfx h), fun h₁ h₂ => hwords (Voice.envTarget_top hfx h₁ h₂),
      fun h₁ h₂ => hwords (Voice.envTarget_between hfx h₁ h₂)⟩

end Sys2Proof.Machine
end

section
/-! SUPPORT. The cycles of the envelope (41_envelope.md R132, R133, R137): ramps joined by the turns. -/

namespace Sys2Proof.Machine

section
variable {V : Voice} {d : Direction} {x : Int} {n : Nat}

/-- UP falls from the configured level, one level a boundary, as far as 2 (R132). -/
theorem iterate_envTransition_up (hfx : V.fx = .up) (hn : (n : Int) < sext32 V.level - 1) :
    envTransition^[n] (V.withEnv (sext32 V.level) d) = V.withEnv (sext32 V.level - n) d := by
  have hlevel := isInt32_sext32 V.level
  rw [iterate_envTransition_ramp (-1) (fun k hk => by omega)
    (fun k hk => by rw [Voice.envTarget_up hfx, if_neg (by omega), sub_eq_add_neg]), neg_one_mul, sub_eq_add_neg]

/-- UP restarts at the configured level when the next level down is 1 or less (R132). -/
theorem envTransition_restart_up (hfx : V.fx = .up) (hx : IsInt32 x) (h : x - 1 ≤ 1) :
    envTransition (V.withEnv x d) = V.withEnv (sext32 V.level) d :=
  envTransition_withEnv hx (by rw [Voice.envTarget_up hfx, if_pos h])

/-- DOWN rises from 1, one level a boundary, as far as `level - 1` (R133). -/
theorem iterate_envTransition_down (hfx : V.fx = .down) (hn : (n : Int) < sext32 V.level - 1) :
    envTransition^[n] (V.withEnv 1 d) = V.withEnv (n + 1) d := by
  have hlevel := isInt32_sext32 V.level
  rw [iterate_envTransition_ramp 1 (fun k hk => by omega)
    (fun k hk => by rw [Voice.envTarget_down hfx, if_neg (by omega)]), one_mul, add_comm]

/-- DOWN restarts at 1 when the next level up reaches the configured level (R133). -/
theorem envTransition_restart_down (hfx : V.fx = .down) (hx : IsInt32 x) (h : sext32 V.level ≤ x + 1) :
    envTransition (V.withEnv x d) = V.withEnv 1 d :=
  envTransition_withEnv hx (by rw [Voice.envTarget_down hfx, if_pos h])

/-- BOUNCE climbs as long as it stays at or below the configured level (R134). -/
theorem iterate_envTransition_climb (hfx : V.fx = .bounce) (hx : sext32 V.low ≤ x) (hn : x + n ≤ sext32 V.level) :
    envTransition^[n] (V.withEnv x .ascending) = V.withEnv (x + n) .ascending := by
  have hlow := isInt32_sext32 V.low
  have hlevel := isInt32_sext32 V.level
  have hdir := Direction.toInt_ascending
  rw [iterate_envTransition_ramp 1 (fun k hk => by omega)
    (fun k hk => Voice.envTarget_between hfx (by omega) (by omega)), one_mul]

/-- BOUNCE falls as long as it stays at or above the low bound (R134). -/
theorem iterate_envTransition_fall (hfx : V.fx = .bounce) (hx : x ≤ sext32 V.level) (hn : sext32 V.low ≤ x - n) :
    envTransition^[n] (V.withEnv x .descending) = V.withEnv (x - n) .descending := by
  have hlow := isInt32_sext32 V.low
  have hlevel := isInt32_sext32 V.level
  have hdir := Direction.toInt_descending
  rw [iterate_envTransition_ramp (-1) (fun k hk => by omega)
    (fun k hk => Voice.envTarget_between hfx (by omega) (by omega)), neg_one_mul, sub_eq_add_neg]

/-- BOUNCE turns at the bottom when the next level down is below the low bound (R134). -/
theorem envTransition_turn_bottom (hfx : V.fx = .bounce) (hx : IsInt32 x) (h : x - 1 < sext32 V.low) :
    envTransition (V.withEnv x .descending) = V.withEnv (sext32 V.low + 2) .ascending :=
  have hdir := Direction.toInt_descending
  envTransition_withEnv hx (Voice.envTarget_bottom hfx (by omega))

/-- BOUNCE turns at the top when the next level up is above the configured level and not below the low bound (R134). -/
theorem envTransition_turn_top (hfx : V.fx = .bounce) (hx : IsInt32 x) (hlow : sext32 V.low ≤ x + 1) (h : sext32 V.level < x + 1) :
    envTransition (V.withEnv x .ascending) = V.withEnv (sext32 V.level - 2) .descending :=
  have hdir := Direction.toInt_ascending
  envTransition_withEnv hx (Voice.envTarget_top hfx (by omega) (by omega))

end

/-- Settles O22: the ramp from `level` to 2, and the restart. -/
theorem upEnvelopeCycle : Obligations.UpEnvelopeCycle := by
  refine fun V hfx => ⟨envTransition_cur_up hfx, fun (h8 : 8 ≤ sext32 V.level) hcur => ?_⟩
  have hlevel := isInt32_sext32 V.level
  have hV : V.withEnv (sext32 V.level) V.dir = V := Voice.withEnv_of_eq (congrArg sext32 hcur)
  have hramp : ∀ k : Nat, (k : Int) < sext32 V.level - 1 → envTransition^[k] V = V.withEnv (sext32 V.level - k) V.dir := fun k hk => by
    rw [← iterate_envTransition_up hfx hk, hV]
  refine ⟨fun k (hk : (k : Int) < sext32 V.level - 1) => ?_, ?_⟩
  · rw [hramp k hk]
    exact Voice.withEnv_cur (by omega)
  · obtain ⟨n, hn⟩ : ∃ n : Nat, sext32 V.level = n + 2 := ⟨(sext32 V.level - 2).toNat, by omega⟩
    calc envTransition^[(sext32 V.level - 1).toNat] V
        = envTransition (envTransition^[n] V) := by
          rw [show (sext32 V.level - 1).toNat = n + 1 by omega, Function.iterate_succ_apply']
      _ = envTransition (V.withEnv (sext32 V.level - n) V.dir) := by rw [hramp n (by omega)]
      _ = V := (envTransition_restart_up hfx (by omega) (by omega)).trans hV

/-- Settles O23: the restart at 1, and the ramp from there to `level - 1`. -/
theorem downEnvelopeCycle : Obligations.DownEnvelopeCycle := by
  refine fun V hfx => ⟨envTransition_cur_down hfx, fun (h8 : 8 ≤ sext32 V.level) hcur => ?_⟩
  have hlevel := isInt32_sext32 V.level
  have hfirst : envTransition V = V.withEnv 1 V.dir := by
    rw [← envTransition_restart_down hfx hlevel (by omega), Voice.withEnv_of_eq (congrArg sext32 hcur)]
  have hramp : ∀ k : Nat, (k : Int) < sext32 V.level - 1 → envTransition^[k + 1] V = V.withEnv (k + 1) V.dir := fun k hk => by
    rw [Function.iterate_succ_apply, hfirst, iterate_envTransition_down hfx hk]
  refine ⟨fun k (hk : (k : Int) < sext32 V.level - 1) => ?_, ?_⟩
  · rw [hramp k hk]
    exact Voice.withEnv_cur (by omega)
  · obtain ⟨n, hn⟩ : ∃ n : Nat, sext32 V.level = n + 2 := ⟨(sext32 V.level - 2).toNat, by omega⟩
    calc envTransition^[(sext32 V.level - 1).toNat + 1] V
        = envTransition (envTransition^[n + 1] V) := by
          rw [show (sext32 V.level - 1).toNat = n + 1 by omega, Function.iterate_succ_apply']
      _ = envTransition (V.withEnv (n + 1) V.dir) := by rw [hramp n (by omega)]
      _ = V.withEnv 1 V.dir := envTransition_restart_down hfx (by omega) (by omega)
      _ = envTransition V := hfirst.symm

/-- Settles O24: a ramp from `low + 2` to `level`, the turn at the top, a ramp from `level - 2` to `low`, the turn at the bottom. -/
theorem bounceEnvelopeCycle : Obligations.BounceEnvelopeCycle := by
  intro V d hfx (hlow : 0 ≤ sext32 V.low) (hlevel : sext32 V.level = sext32 V.low + d) hd (hcur : sext32 V.cur = sext32 V.low + 2) hdir
  have hlevel32 := isInt32_sext32 V.level
  have hV : V.withEnv (sext32 V.low + 2) .ascending = V := hdir ▸ Voice.withEnv_of_eq hcur
  have hclimb : ∀ k ≤ d - 2, envTransition^[k] V = V.withEnv (sext32 V.low + 2 + k) .ascending := fun k hk => by
    rw [← iterate_envTransition_climb hfx (by omega) (by omega), hV]
  have htop : envTransition^[d - 1] V = V.withEnv (sext32 V.level - 2) .descending := by
    rw [show d - 1 = d - 2 + 1 by omega, Function.iterate_succ_apply', hclimb _ le_rfl,
      envTransition_turn_top hfx (by omega) (by omega) (by omega)]
  have hfall : ∀ k ≤ d - 2, envTransition^[d - 1 + k] V = V.withEnv (sext32 V.level - 2 - k) .descending := fun k hk => by
    rw [add_comm, Function.iterate_add_apply, htop, iterate_envTransition_fall hfx (by omega) (by omega)]
  refine ⟨fun k hk => ?_, fun k hk => ?_, ?_⟩
  · rw [hclimb k hk]
    exact ⟨Voice.withEnv_cur (by omega), rfl⟩
  · rw [hfall k hk]
    exact ⟨Voice.withEnv_cur (by omega), rfl⟩
  · rw [show 2 * d - 2 = d - 1 + (d - 2) + 1 by omega, Function.iterate_succ_apply', hfall _ le_rfl,
      envTransition_turn_bottom hfx (by omega) (by omega), hV]

/-- Settles O25: every transition turns, so two of them from `low + 2` lead back there. -/
theorem invertedBounceAlternates : Obligations.InvertedBounceAlternates := by
  intro V k hfx (hlevel : 0 ≤ sext32 V.level) (hle : sext32 V.level ≤ sext32 V.low) (hlow : sext32 V.low + 3 ≤ 2147483647) hcur hdir
  have hfirst : envTransition V = V.withEnv (sext32 V.low + 2) .ascending := by
    rw [← envTransition_turn_bottom (x := sext32 V.level) hfx (by omega) (by omega), ← hdir,
      Voice.withEnv_of_eq (congrArg sext32 hcur)]
  have htop : envTransition (V.withEnv (sext32 V.low + 2) .ascending) = V.withEnv (sext32 V.level - 2) .descending :=
    envTransition_turn_top hfx (by omega) (by omega) (by omega)
  have htwo : envTransition^[2] (V.withEnv (sext32 V.low + 2) .ascending) = V.withEnv (sext32 V.low + 2) .ascending := by
    rw [Function.iterate_succ_apply, htop, Function.iterate_one, envTransition_turn_bottom hfx (by omega) (by omega)]
  have hodd : envTransition^[2 * k + 1] V = V.withEnv (sext32 V.low + 2) .ascending := by
    rw [Function.iterate_succ_apply, hfirst, Function.iterate_mul, Function.iterate_fixed htwo]
  have heven : envTransition^[2 * k + 2] V = V.withEnv (sext32 V.level - 2) .descending := by
    rw [Function.iterate_succ_apply', hodd, htop]
  rw [hodd, heven]
  exact ⟨⟨Voice.withEnv_cur (by omega), rfl⟩, Voice.withEnv_cur (by omega), rfl⟩

end Sys2Proof.Machine
end

section
/-! SUPPORT. The whole of `TICK` (42_mixer.md R150): what it answers while the block runs, and while it is paused. -/

namespace Sys2Proof.Machine

theorem whileRunning_of_paused {s : State} {r : Result} (h : s.run = false) : whileRunning s r = .refused .audioWhilePaused := by
  simp [whileRunning, h]

/-- Settles O17: the gate of both operations asks for `run` first. -/
theorem pausedAudioOperationsAreRefused : Obligations.PausedAudioOperationsAreRefused :=
  fun _ _ _ hrun => ⟨whileRunning_of_paused hrun, whileRunning_of_paused hrun⟩

/-- The condition under which a sample is defined, in the words of the obligations. -/
theorem State.wavelengthsDefined_iff (s : State) :
    s.wavelengthsDefined ↔ ∀ v, (s.voice v).hz ≠ 0 → 0 < (s.voice v).wl.toInt := by
  simp [State.wavelengthsDefined, Voice.active, sext32]

theorem State.mixSum_voiceOrder (s : State) :
    s.mixSum voiceOrder = (s.voice 0).contribution + (s.voice 1).contribution + (s.voice 2).contribution +
      (s.voice 3).contribution := by
  simp [State.mixSum, voiceOrder, add_assoc]

section
variable {s : State} (hrun : s.run = true)
include hrun

theorem exec_tick_of_run : exec .tick s = raising (tickSample Config.params s) := whileRunning_of_run hrun

theorem exec_tick_of_wavelengthsDefined (hdefined : s.wavelengthsDefined) :
    exec .tick s =
      .next ((s.advanceVoices voiceOrder).setOut (mixByte Config.params.silence (s.mixSum voiceOrder))) := by
  rw [exec_tick_of_run hrun, tickSample_eq, (find_lacksWavelength_eq_none s).2 hdefined]
  rfl

theorem exec_tick_of_lacksWavelength {v : Fin 4} (hv : voiceOrder.find? (fun v => (s.voice v).lacksWavelength) = some v) :
    exec .tick s = .fault (.undefinedWavelength v) := by
  rw [exec_tick_of_run hrun, tickSample_eq, hv]
  rfl

end

/-- Settles O26: the two answers of a `TICK` while the block runs, by whether some active voice lacks a wavelength. -/
theorem tickProducesOneMixedSample : Obligations.TickProducesOneMixedSample := by
  refine ⟨fun k hk => decodePacket_tick hk, fun s hrun => ?_⟩
  rw [← s.wavelengthsDefined_iff]
  refine ⟨fun hdefined => ?_, fun hundefined => ?_⟩
  · obtain ⟨hrun', -, hbuf, howned, hfill, hpending⟩ := s.advanceVoices_frame voiceOrder
    refine ⟨_, exec_tick_of_wavelengthsDefined hrun hdefined, ?_, s.voice_advanceVoices_voiceOrder, hrun', hbuf, howned, hfill,
      hpending⟩
    rw [← s.mixSum_voiceOrder]
    rfl
  · rw [← find_lacksWavelength_eq_none] at hundefined
    obtain ⟨v, hv⟩ := Option.ne_none_iff_exists'.1 hundefined
    have hlacks : (s.voice v).lacksWavelength = true := List.find?_some (p := fun v => (s.voice v).lacksWavelength) hv
    simp only [Voice.lacksWavelength, Voice.active, Bool.and_eq_true, bne_iff_ne, decide_eq_true_eq] at hlacks
    exact ⟨v, hlacks.1, hlacks.2, exec_tick_of_lacksWavelength hrun hv⟩

end Sys2Proof.Machine
end

section
/-! SUPPORT. The range of the mix and its wrapping (42_mixer.md R152; 40_generator.md R116). -/

namespace Sys2Proof.Machine

theorem square_bounds (phase wl : Nat) {vol : Int} (h : 0 ≤ vol) : -vol ≤ square phase wl vol ∧ square phase wl vol ≤ vol := by
  unfold square
  split <;> omega

/-- A voice adds at most its volume to a sample, in either direction (R111, R151). -/
theorem Voice.contribution_bounds {V : Voice} (h : 0 ≤ sext32 V.vol) :
    -sext32 V.vol ≤ V.contribution ∧ V.contribution ≤ sext32 V.vol := by
  unfold Voice.contribution
  split
  · split
    · omega
    · exact square_bounds _ _ h
  · omega

theorem mixByte_toNat (b : Byte) (x : Int) : ((mixByte b x).toNat : Int) = ((b.toNat : Int) + x) % 256 := by
  rw [mixByte, BitVec.toNat_add, BitVec.toNat_ofInt]
  omega

/-- Settles O28: each of the four voices adds between -60 and 60. -/
theorem mixIsTheWrappedSum : Obligations.MixIsTheWrappedSum := by
  intro s t hvol h
  have hbounds (v : Fin 4) : -60 ≤ (s.voice v).contribution ∧ (s.voice v).contribution ≤ 60 := by
    obtain ⟨hlow, hhigh⟩ := Voice.contribution_bounds (hvol v).1
    have hmax : sext32 (s.voice v).vol ≤ 60 := (hvol v).2
    omega
  have hsum := s.mixSum_voiceOrder
  have h₀ := hbounds 0
  have h₁ := hbounds 1
  have h₂ := hbounds 2
  have h₃ := hbounds 3
  cases exec_answers h
  exact ⟨s.mixSum voiceOrder, _, rfl, by omega, by omega, rfl, mixByte_toNat _ _⟩

end Sys2Proof.Machine
end

section
/-! SUPPORT. The order of the voices in a sample (42_mixer.md R153): the sum and the voices after it do not depend on it. -/

namespace Sys2Proof.Machine

section
variable {vs ws : List (Fin 4)} (hperm : vs.Perm ws)
include hperm

theorem State.mixSum_perm (s : State) : s.mixSum vs = s.mixSum ws := (hperm.map _).sum_eq

theorem State.advanceVoices_perm (hws : ws.Nodup) (s : State) : s.advanceVoices vs = s.advanceVoices ws := by
  obtain ⟨hrun, hout, hbuf, howned, hfill, hpending⟩ := s.advanceVoices_frame vs
  obtain ⟨hrun', hout', hbuf', howned', hfill', hpending'⟩ := s.advanceVoices_frame ws
  refine State.ext_voice (fun v => ?_) (hrun.trans hrun'.symm) (hout.trans hout'.symm) (hbuf.trans hbuf'.symm)
    (howned.trans howned'.symm) (hfill.trans hfill'.symm) (hpending.trans hpending'.symm)
  simp only [State.advanceVoices_voice (hperm.nodup_iff.2 hws), State.advanceVoices_voice hws, hperm.mem_iff]

end

/-- The voices of one `TICK` where every active voice has a wavelength (R150). -/
theorem tickVoices_of_wavelengthsDefined {s : State} (hdefined : s.wavelengthsDefined) {vs : List (Fin 4)} (hvs : vs.Nodup)
    (acc : Byte) : tickVoices vs acc s = .ok (mixByte acc (s.mixSum vs), s.advanceVoices vs) := by
  have hnone : vs.find? (fun v => (s.voice v).lacksWavelength) = none := by
    have hall := List.find?_eq_none.1 ((find_lacksWavelength_eq_none s).2 hdefined)
    exact List.find?_eq_none.2 fun v _ => hall v (mem_voiceOrder v)
  rw [tickVoices_eq hvs, hnone]

/-- Settles O30: the sum and the state after a sample are the same for every order. -/
theorem voiceOrderDoesNotMatter : Obligations.VoiceOrderDoesNotMatter := by
  intro s acc vs (hperm : vs.Perm voiceOrder) hwl
  have hdefined := s.wavelengthsDefined_iff.2 hwl
  have hvs := tickVoices_of_wavelengthsDefined hdefined (hperm.nodup_iff.2 voiceOrder_nodup) acc
  refine ⟨?_, _, _, hvs⟩
  rw [hvs, State.mixSum_perm hperm, State.advanceVoices_perm hperm voiceOrder_nodup]
  exact (tickVoices_of_wavelengthsDefined hdefined voiceOrder_nodup acc).symm

end Sys2Proof.Machine
end

section
/-! SUPPORT. The whole of `FILL` (42_mixer.md R155 to R157, R159): what it answers, and the `TICK`s it is equal to. -/

namespace Sys2Proof.Machine

/-- Settles O35: a range of no bytes is always owned. -/
theorem emptyFillChangesNothing : Obligations.EmptyFillChangesNothing :=
  fun s base hrun => exec_fill_eq_next_iff.2 ⟨hrun, rfl, fillBuffer_zero Config.params base s⟩

theorem whileRunning_fault {s : State} {r : Result} {f : Fault} (h : whileRunning s r = .fault f) :
    s.run = true ∧ r = .fault f := by
  unfold whileRunning at h
  split at h
  · exact ⟨‹_›, h⟩
  · cases h

theorem raising_eq_fault {r : Except Fault State} {f : Fault} (h : raising r = .fault f) : r = .error f := by
  unfold raising at h
  split at h <;> cases h
  rfl

section
variable {s : State} {base n : Nat}

/-- A `FILL` where every active voice has a wavelength completes (R155). Its bytes are `exec_fill_read`'s. -/
theorem exec_fill_of_wavelengthsDefined (hrun : s.run = true) (howns : s.ownsRange base n = true)
    (hdefined : s.wavelengthsDefined) : ∃ m, exec (.fill base n) s = .next ((s.advanceTimes n).setBuf m) := by
  obtain ⟨_, hbody, ⟨m, rfl⟩, -⟩ := fillBuffer_ok Config.params base n hdefined
  exact ⟨m, exec_fill_eq_next_iff.2 ⟨hrun, howns, hbody⟩⟩

/-- A `FILL` faults only at the first active voice without a wavelength, and only if it has a sample to make (R233, R235). -/
theorem exec_fill_fault {f : Fault} (h : exec (.fill base n) s = .fault f) :
    s.run = true ∧ 0 < n ∧
      ∃ v, voiceOrder.find? (fun v => (s.voice v).lacksWavelength) = some v ∧ f = .undefinedWavelength v := by
  obtain ⟨hrun, h⟩ := whileRunning_fault h
  split at h
  case isFalse => cases h
  have hbody := raising_eq_fault h
  have hn : 0 < n := Nat.pos_of_ne_zero fun hzero => by
    subst hzero
    cases (fillBuffer_zero Config.params base s).symm.trans hbody
  cases hfind : voiceOrder.find? (fun v => (s.voice v).lacksWavelength) with
  | none =>
    obtain ⟨t, ht, -⟩ := fillBuffer_ok Config.params base n ((find_lacksWavelength_eq_none s).1 hfind)
    cases ht.symm.trans hbody
  | some v =>
    cases (fillBuffer_error Config.params base n hn hfind).symm.trans hbody
    exact ⟨hrun, hn, v, rfl, rfl⟩

end

/-- Settles O32: the state and the bytes of a `FILL` that completes. -/
theorem fillWritesExactlyItsRange : Obligations.FillWritesExactlyItsRange := by
  intro s base n hrun howns hwl
  obtain ⟨m, hexec⟩ := exec_fill_of_wavelengthsDefined hrun howns (s.wavelengthsDefined_iff.2 hwl)
  obtain ⟨hin, hout⟩ := exec_fill_read hexec
  obtain ⟨hrun', hout', -, howned', hfill', hpending'⟩ := s.advanceTimes_frame n
  refine ⟨_, hexec, fun k hk => ?_, hout, s.advanceTimes_voice n, hrun', hout', howned', hfill', hpending'⟩
  simp only [hin k hk, State.mixSum_voiceOrder, State.advanceTimes_voice]
  rfl

/-! ### `FILL` and `TICK`s (R157) -/

/-- The state after `k + 1` `TICK`s: each voice has made that many samples, and the port holds the last of them. -/
theorem tickTimes_succ {s : State} (hrun : s.run = true) (hdefined : s.wavelengthsDefined) (k : Nat) :
    tickTimes (k + 1) s =
      .next ((s.advanceTimes (k + 1)).setOut (mixByte Config.params.silence ((s.advanceTimes k).mixSum voiceOrder))) := by
  induction k with
  | zero => exact exec_tick_of_wavelengthsDefined hrun hdefined
  | succ k ih =>
    have hrun' := (s.advanceTimes_frame (k + 1)).1.trans hrun
    have hdefined' := State.advanceTimes_wavelengthsDefined hdefined (k + 1)
    rw [tickTimes, ih]
    refine (exec_tick_of_wavelengthsDefined (s := (s.advanceTimes (k + 1)).setOut _) hrun' hdefined').trans ?_
    rw [State.advanceVoices_comm (f := (·.setOut _)) (fun _ => rfl) (fun _ _ _ => rfl)]
    rfl

theorem tickTimes_fault {s : State} {f : Fault} (h : exec .tick s = .fault f) (k : Nat) : tickTimes (k + 1) s = .fault f := by
  induction k with
  | zero => exact h
  | succ k ih => rw [tickTimes, ih]

/-- What a `FILL` that answers has made of the voices and of `run`, as many `TICK`s make of them (R157). -/
theorem Answers.fill_voices {s t : State} {base n : Nat} (h : Answers s (.fill base n) t) :
    t.voices = (s.advanceTimes n).voices ∧ t.run = (s.advanceTimes n).run := by
  cases h
  exact ⟨rfl, rfl⟩

/-- Settles O34: the samples of a `FILL` are those of as many `TICK`s, and both fault at the first voice without a wavelength. -/
theorem fillIsTicks : Obligations.FillIsTicks := by
  refine fun s base n => ⟨fun t h => ?_, fun f h => ?_⟩
  · have hrun := (exec_fill_eq_next_iff.1 h).1
    obtain ⟨hvoices, hrun'⟩ := (exec_answers h).fill_voices
    have hticks (k : Nat) (hk : k < n) := tickTimes_succ hrun (wavelengthsDefined_of_exec_fill h (Nat.zero_lt_of_lt hk)) k
    refine ⟨?_, fun k hk => ⟨_, _, hticks k hk, rfl, (exec_fill_read h).1 k hk⟩⟩
    cases n with
    | zero => exact ⟨s, rfl, hvoices, hrun'⟩
    | succ n => exact ⟨_, hticks n n.lt_succ_self, hvoices, hrun'⟩
  · obtain ⟨hrun, hn, v, hv, rfl⟩ := exec_fill_fault h
    obtain ⟨n, rfl⟩ := Nat.exists_eq_add_one_of_ne_zero hn.ne'
    exact tickTimes_fault (exec_tick_of_lacksWavelength hrun hv) n

/-! ### Four silent voices (R159) -/

section
variable {s : State} (hsilent : ∀ v, (s.voice v).hz = 0)
include hsilent

theorem State.mixSum_silent (vs : List (Fin 4)) : s.mixSum vs = 0 := by
  have hzero (v : Fin 4) : (s.voice v).contribution = 0 :=
    Voice.contribution_silent ((Voice.active_eq_false_iff _).2 (hsilent v))
  simp [State.mixSum, hzero]

theorem State.advanceVoices_silent (vs : List (Fin 4)) : s.advanceVoices vs = s := by
  induction vs with
  | nil => rfl
  | cons v vs ih =>
    rw [State.advanceVoices_cons, Voice.afterSample_silent ((Voice.active_eq_false_iff _).2 (hsilent v)), State.setVoice_voice, ih]

theorem State.advanceTimes_silent (n : Nat) : s.advanceTimes n = s := by
  induction n with
  | zero => rfl
  | succ n ih => rw [State.advanceTimes, ih, State.advanceVoices_silent hsilent]

end

/-- Settles O36: silent voices add 0 to every sample and make no change. -/
theorem silentBlockMixesSilence : Obligations.SilentBlockMixesSilence := by
  intro s hrun hsilent
  have hdefined : s.wavelengthsDefined := s.wavelengthsDefined_iff.2 fun v hv => absurd (hsilent v) hv
  have hsum := State.mixSum_silent hsilent voiceOrder
  refine ⟨?_, fun base n howns => ?_⟩
  · rw [exec_tick_of_wavelengthsDefined hrun hdefined, hsum, mixByte_zero, State.advanceVoices_silent hsilent]
    rfl
  · obtain ⟨m, hexec⟩ := exec_fill_of_wavelengthsDefined hrun howns hdefined
    rw [State.advanceTimes_silent hsilent] at hexec
    obtain ⟨hin, hout⟩ := exec_fill_read hexec
    refine ⟨_, hexec, rfl, rfl, rfl, fun a => ?_⟩
    split
    · rename_i ha
      obtain ⟨k, rfl⟩ := Nat.exists_eq_add_of_le ha.1
      rw [hin k (by omega), State.advanceTimes_silent hsilent, hsum, mixByte_zero]
      rfl
    · exact hout a (by omega)

end Sys2Proof.Machine
end

section
/-! SUPPORT. What the mixer keeps of a voice (42_mixer.md R158), and who else writes `hz` and `phase`. -/

namespace Sys2Proof.Machine

section
variable {i : Instr} {s t : State}

/-- An operation of the audio agent makes some number of samples of every voice (R150, R155) and leaves `run` alone. -/
theorem Answers.audio (h : Answers s i t) (hi : i.port = .audio) :
    t.run = s.run ∧ ∃ n, ∀ v, t.voice v = Voice.afterSample^[n] (s.voice v) := by
  cases h with
  | @filled _ n => exact ⟨(s.advanceTimes_frame n).1, n, s.advanceTimes_voice n⟩
  | ticked => exact ⟨(s.advanceVoices_frame voiceOrder).1, 1, s.voice_advanceVoices_voiceOrder⟩
  | _ => cases hi

/-- No operation of the host agent advances a phase: it stands still or restarts at 0 (R174, R181 to R183). -/
theorem Answers.host_phase (h : Answers s i t) (hi : i.port = .host) (v : Fin 4) :
    (t.voice v).phase = (s.voice v).phase ∨ (t.voice v).phase = 0 := by
  cases i with
  | play =>
    rw [h.play_phase v]
    split
    · exact .inr rfl
    · exact .inl rfl
  | stop voice => exact .inl (h.phase_eq (.inr (.inr ⟨voice, rfl⟩)) v)
  | resume => exact .inl (h.phase_eq (.inl rfl) v)
  | pause => exact .inl (h.phase_eq (.inr (.inl rfl)) v)
  | fill | tick => cases hi

/-- Only a `PLAY` or a `STOP` of a voice changes its `hz` (R158). -/
theorem Answers.writer_of_hz (h : Answers s i t) {v : Fin 4} (hne : (t.voice v).hz ≠ (s.voice v).hz) :
    (∃ hz d vol e l w, i = .play v.val hz d vol e l w) ∨ i = .stop v.val := by
  obtain hplay | ⟨hstop, -⟩ | ⟨-, htone⟩ := h.writer_of_voice fun e => hne (congrArg Voice.hz e)
  · exact .inl hplay
  · exact .inr hstop
  · exact absurd htone.hz_eq hne

end

/-- The fields a voice of the same tone has kept (R158). -/
theorem Voice.SameTone.fields {V W : Voice} (h : V.SameTone W) :
    W.hz = V.hz ∧ W.wl = V.wl ∧ W.vol = V.vol ∧ W.dur = V.dur ∧ W.fx = V.fx ∧ W.level = V.level ∧ W.low = V.low ∧
      (V.fx ≠ .bounce → W.dir = V.dir) ∧ W.active = V.active := by
  obtain ⟨hW, hdir⟩ := h
  rw [hW]
  exact ⟨rfl, rfl, rfl, rfl, rfl, rfl, rfl, hdir, rfl⟩

/-- Settles O37: the mixer's samples keep the tone of a voice and the whole of a silent one. -/
theorem mixerKeepsTheLoadedFields : Obligations.MixerKeepsTheLoadedFields := by
  intro i s t h
  have ha := exec_answers h
  refine ⟨fun hi => ?_, ha.host_phase, fun v => ha.writer_of_hz⟩
  obtain ⟨hrun, n, hvoice⟩ := ha.audio hi
  refine ⟨hrun, fun v => ?_⟩
  rw [hvoice]
  obtain ⟨hhz, hwl, hvol, hdur, hfx, hlevel, hlow, hdir, hactive⟩ := ((s.voice v).iterate_afterSample_sameTone n).fields
  exact ⟨hhz, hwl, hvol, hdur, hfx, hlevel, hlow, hdir, hactive,
    fun hsilent => Function.iterate_fixed (Voice.afterSample_silent hsilent) n⟩

end Sys2Proof.Machine
end

section
/-! SUPPORT. What `PLAY` answers, case by case (43_voice_control.md R170, R174, R180). -/

namespace Sys2Proof.Machine

section
variable {voice durationMs volume effect hz effectLevel effectLow : Int} {v : Fin 4} {kind : EffectKind}

theorem play_of_rejected (p : Params) (s : State) (htarget : playTarget voice durationMs volume effect = none) :
    play p voice hz durationMs volume effect effectLevel effectLow s = .next s := by
  simp only [play, htarget]

theorem play_of_negativeFrequency (p : Params) (s : State)
    (htarget : playTarget voice durationMs volume effect = some (v, kind)) (hhz : hz < 0) :
    play p voice hz durationMs volume effect effectLevel effectLow s = .refused .playNegativeFrequency := by
  simp only [play, htarget, if_pos hhz]

theorem play_of_effectOutOfDomain (p : Params) (s : State)
    (htarget : playTarget voice durationMs volume effect = some (v, kind)) (hhz : 0 ≤ hz)
    (hdom : 2 ^ 28 ≤ effectLevel.natAbs ∨ 2 ^ 28 ≤ effectLow.natAbs) :
    play p voice hz durationMs volume effect effectLevel effectLow s = .refused .playEffectOutOfDomain := by
  have hout : ¬effectInDomain effectLevel effectLow = true := by
    rw [effectInDomain_eq_true_iff]
    omega
  simp only [play, htarget, if_neg (Int.not_lt.2 hhz), if_neg hout]

theorem play_of_inDomain (p : Params) (s : State)
    (htarget : playTarget voice durationMs volume effect = some (v, kind)) (hhz : 0 ≤ hz)
    (hlevel : effectLevel.natAbs < 2 ^ 28) (hlow : effectLow.natAbs < 2 ^ 28) :
    play p voice hz durationMs volume effect effectLevel effectLow s =
      .next ((s.setVoice v (loadedVoice p hz durationMs volume kind effectLevel effectLow)).setRun true) := by
  have hin : effectInDomain effectLevel effectLow = true := (effectInDomain_eq_true_iff ..).2 ⟨hlevel, hlow⟩
  simp only [play, htarget, if_neg (Int.not_lt.2 hhz), if_pos hin]

/-- An accepted `PLAY` that answers has loaded its voice: the operands outside the domain are refused (R180). -/
theorem play_next {p : Params} {s t : State} (htarget : playTarget voice durationMs volume effect = some (v, kind))
    (h : play p voice hz durationMs volume effect effectLevel effectLow s = .next t) :
    t = (s.setVoice v (loadedVoice p hz durationMs volume kind effectLevel effectLow)).setRun true := by
  by_cases hhz : hz < 0
  · rw [play_of_negativeFrequency p s htarget hhz] at h
    cases h
  by_cases hdom : 2 ^ 28 ≤ effectLevel.natAbs ∨ 2 ^ 28 ≤ effectLow.natAbs
  · rw [play_of_effectOutOfDomain p s htarget (Int.not_lt.1 hhz) hdom] at h
    cases h
  obtain ⟨hlevel, hlow⟩ := not_or.1 hdom
  rw [play_of_inDomain p s htarget (Int.not_lt.1 hhz) (Nat.not_le.1 hlevel) (Nat.not_le.1 hlow)] at h
  cases h
  rfl

/-- Operands that R170 does not reject name a voice and an effect kind. -/
theorem exists_playTarget (h : ¬(voice < 0 ∨ 3 < voice ∨ volume < 0 ∨ 10 < volume ∨ effect < 0 ∨ 4 < effect ∨ durationMs < 0)) :
    ∃ v kind, playTarget voice durationMs volume effect = some (v, kind) := by
  rw [← playTarget_eq_none_iff] at h
  obtain ⟨⟨v, kind⟩, h⟩ := Option.ne_none_iff_exists'.1 h
  exact ⟨v, kind, h⟩

/-- The voice and the kind that operands R170 accepts name. -/
theorem playTarget_code (hvol₀ : 0 ≤ volume) (hvol₁ : volume ≤ 10) (hdur : 0 ≤ durationMs) (v : Fin 4) (kind : EffectKind) :
    playTarget v.val durationMs volume kind.code = some (v, kind) :=
  (playTarget_eq_some_iff ..).2 ⟨hvol₀, hvol₁, hdur, rfl, rfl⟩

end

theorem exec_play (s : State) (voice hz durationMs volume effect effectLevel effectLow : Int) :
    exec (.play voice hz durationMs volume effect effectLevel effectLow) s =
      play Config.params voice hz durationMs volume effect effectLevel effectLow s := rfl

/-- `PLAY` reads the magnitudes of its effect arguments and no more of them (R177). -/
theorem play_congr_natAbs (p : Params) (voice hz durationMs volume effect : Int) {level level' low low' : Int} (s : State)
    (hlevel : level.natAbs = level'.natAbs) (hlow : low.natAbs = low'.natAbs) :
    play p voice hz durationMs volume effect level low s = play p voice hz durationMs volume effect level' low' s := by
  have hscale : scaleEffect level = scaleEffect level' := by rw [scaleEffect, hlevel, scaleEffect]
  have hscaleLow : scaleEffect low = scaleEffect low' := by rw [scaleEffect, hlow, scaleEffect]
  have hdom : effectInDomain level low = effectInDomain level' low' := by rw [effectInDomain, hlevel, hlow, effectInDomain]
  have hload (kind : EffectKind) :
      loadedVoice p hz durationMs volume kind level low = loadedVoice p hz durationMs volume kind level' low' := by
    cases kind <;> simp only [loadedVoice, startLevel, hscale, hscaleLow]
  simp only [play, hdom, hload]

/-- Settles O7: validation finds no voice and kind exactly under the seven conditions, and what it finds is loaded. -/
theorem playIsValidatedSilently : Obligations.PlayIsValidatedSilently := by
  intro s voice hz durationMs volume effect effectLevel effectLow
  rw [exec_play]
  refine ⟨fun h => play_of_rejected Config.params s ((playTarget_eq_none_iff ..).2 h), fun h hdur hhz hlevel hlow => ?_⟩
  obtain ⟨v, kind, htarget⟩ := exists_playTarget h
  obtain ⟨-, -, -, hvoice, -⟩ := (playTarget_eq_some_iff ..).1 htarget
  refine ⟨_, v, hvoice, play_of_inDomain Config.params s htarget hhz hlevel hlow, rfl, ?_⟩
  rw [State.setRun_voice, State.voice_setVoice_same]
  exact ⟨rfl, sext32_wordOfInt hdur⟩

/-- Settles O9: the frequency is looked at first, then the effect arguments. -/
theorem playOutsideDomainIsRefused : Obligations.PlayOutsideDomainIsRefused := by
  intro s v kind hz durationMs volume effectLevel effectLow hvol₀ hvol₁ hdur
  have htarget := playTarget_code hvol₀ hvol₁ hdur v kind
  rw [exec_play]
  exact ⟨play_of_negativeFrequency Config.params s htarget, play_of_effectOutOfDomain Config.params s htarget⟩

/-- Settles O10: each argument has the magnitude of its negation and of its magnitude. -/
theorem effectArgumentsAreMagnitudes : Obligations.EffectArgumentsAreMagnitudes := by
  intro s voice hz durationMs volume effect effectLevel effectLow
  simp only [exec_play]
  exact ⟨play_congr_natAbs _ _ _ _ _ _ s (Int.natAbs_natCast _).symm (Int.natAbs_natCast _).symm,
    play_congr_natAbs _ _ _ _ _ _ s (Int.natAbs_neg _) rfl, play_congr_natAbs _ _ _ _ _ _ s rfl (Int.natAbs_neg _)⟩

end Sys2Proof.Machine
end

section
/-! SUPPORT. The wavelength function `WL` over the integers (43_voice_control.md R172, R173). -/

namespace Sys2Proof.Machine

/-- `WL(hz)` is above `w` exactly where `SAMPLE_RATE / hz` is `w + 1/2` or more: the two truncating divisions of R172 round once. -/
theorem lt_wavelength_iff {hz : Nat} (hhz : 0 < hz) (rate w : Nat) : w < wavelength rate hz ↔ (2 * w + 1) * hz ≤ 2 * rate := by
  calc w < wavelength rate hz ↔ 10 * w + 5 ≤ rate * 10 / hz := by
        rw [wavelength, if_neg hhz.ne']
        omega
    _ ↔ 5 * ((2 * w + 1) * hz) ≤ rate * 10 := by
        rw [Nat.le_div_iff_mul_le hhz, ← Nat.mul_assoc, Nat.mul_add, ← Nat.mul_assoc]
    _ ↔ (2 * w + 1) * hz ≤ 2 * rate := by omega

/-- `WL` in the integers of R172. -/
theorem natCast_wavelength (rate : Nat) {hz : Int} (hhz : 0 ≤ hz) :
    (wavelength rate hz.toNat : Int) = if hz = 0 then 0 else ((rate : Int) * 10 / hz + 5) / 10 := by
  lift hz to Nat using hhz
  rw [Int.toNat_natCast, wavelength]
  push_cast
  simp only [Int.natCast_eq_zero]

/-- Settles O12: the bounds that place `WL` say which integer is nearest. -/
theorem wavelengthIsNearestInteger : Obligations.WavelengthIsNearestInteger := by
  intro rate hz hhz
  have hlt := lt_wavelength_iff hhz rate
  refine ⟨?_, ?_, ?_, ?_, ?_⟩
  · cases hwl : wavelength rate hz with
    | zero => exact Nat.zero_le _
    | succ w =>
      have hbelow := (hlt w).1 (hwl ▸ Nat.lt_succ_self w)
      linarith
  · have habove := Nat.not_le.1 (mt (hlt _).2 (Nat.lt_irrefl (wavelength rate hz)))
    linarith
  · rw [wavelength, if_neg one_ne_zero, Nat.div_one]
    omega
  · exact hlt 1
  · have hpos := hlt 0
    omega

end Sys2Proof.Machine
end

section
/-! SUPPORT. The voice that an accepted `PLAY` loads, field by field, and its first sample (43_voice_control.md R174 to R178). -/

namespace Sys2Proof.Machine

/-- The wavelength fits its word (R6, R172). -/
theorem sext32_wavelength {rate : Nat} (hrate : rate * 10 < 2147483648) (hz : Nat) :
    sext32 (BitVec.ofNat 32 (wavelength rate hz)) = (wavelength rate hz : Int) := by
  have hle := wavelength_le_rate rate hz
  exact sext32_ofNat (by omega)

/-- A scaled effect argument of the domain, in the words of R177. -/
theorem toInt_scaleEffect {x : Int} (h : x.natAbs < 268435456) : (scaleEffect x).toInt = (x.natAbs : Int) * 8 :=
  (sext32_scaleEffect h).trans (Int.mul_comm _ _)

/-- The start level of an effect argument in the domain (R175). -/
theorem sext32_startLevel (kind : EffectKind) {effectLevel : Int} (h : effectLevel.natAbs < 268435456) :
    sext32 (startLevel kind effectLevel) = if kind.code = 0 then 0 else (effectLevel.natAbs : Int) * 8 := by
  cases kind with
  | none => rfl
  | fixed | up | down | bounce => exact toInt_scaleEffect h

theorem config_params_legal : Config.params.Legal := ⟨Nat.succ_pos _, sampleRate_mul_ten_lt⟩

/-- At the start of a cycle the gate is open at every level (R112) and the wave is high (R111), so a tone with a wavelength of 2 or
more starts at its peak. -/
theorem sample_phase_zero (vol lvl : Word) {wl : Word} (h : 2 ≤ sext32 wl) : sample 0 wl vol lvl = some (sext32 vol) := by
  have hopen : ¬gated (zext32 0) (sext32 lvl) = true := by simp [gated, zext32]
  have hhigh : zext32 0 % (sext32 wl).toNat < (sext32 wl).toNat / 2 := by
    rw [show zext32 0 = 0 from rfl, Nat.zero_mod]
    omega
  rw [sample_of_pos 0 vol lvl (by omega), if_neg hopen, square, if_pos hhigh]

/-- Settles O8: the decoder's `PLAY`, the answers of validation and of the domain, and the fields of the loaded voice. -/
theorem playLoadsTheVoice : Obligations.PlayLoadsTheVoice := by
  refine ⟨fun k h => decodePacket_play h, fun s voice hz durationMs volume effect effectLevel effectLow hwf => ?_⟩
  rw [exec_play]
  refine ⟨?_, ?_⟩
  · exact fun h => play_of_rejected Config.params s ((playTarget_eq_none_iff ..).2 h)
  rintro v kind rfl rfl hvol₀ hvol₁ hdur
  have htarget := playTarget_code hvol₀ hvol₁ hdur v kind
  refine ⟨fun hout => ?_, fun hhz hlevel hlow => ?_⟩
  · rcases lt_or_ge hz 0 with hhz | hhz
    · exact ⟨_, play_of_negativeFrequency Config.params s htarget hhz⟩
    · exact ⟨_, play_of_effectOutOfDomain Config.params s htarget hhz (hout.resolve_left (Int.not_lt.2 hhz))⟩
  · simp only [Instr.wellFormed, Bool.and_eq_true, decide_eq_true_eq] at hwf
    obtain ⟨⟨⟨⟨⟨⟨-, hhz32⟩, hdur32⟩, -⟩, -⟩, -⟩, -⟩ := hwf
    refine ⟨_, play_of_inDomain Config.params s htarget hhz hlevel hlow, ?_⟩
    rw [State.setRun_voice, State.voice_setVoice_same]
    have hwl := (sext32_wavelength sampleRate_mul_ten_lt hz.toNat).trans (natCast_wavelength _ hhz)
    exact ⟨sext32_wordOfInt hhz32, hwl, sext32_scaleVolume hvol₀ hvol₁, sext32_wordOfInt hdur32, rfl,
      toInt_scaleEffect hlevel, toInt_scaleEffect hlow, sext32_startLevel kind hlevel, rfl, rfl, rfl,
      fun w hw => s.voice_setVoice_ne _ hw, rfl, rfl, rfl, rfl, rfl⟩

/-- Settles O13: the loaded phase is 0 and the loaded wavelength at least 2. -/
theorem toneStartsAtPeak : Obligations.ToneStartsAtPeak := by
  refine ⟨?_, config_params_legal, exec_play⟩
  intro p s t v hz durationMs volume effect effectLevel effectLow hp _ hvol₀ hvol₁ heff₀ heff₁ hdur hhz hrate h
  obtain ⟨u, kind, htarget⟩ :=
    exists_playTarget (voice := (v.val : Int)) (durationMs := durationMs) (volume := volume) (effect := effect) (by omega)
  obtain ⟨-, -, -, huv, -⟩ := (playTarget_eq_some_iff ..).1 htarget
  obtain rfl : v = u := Fin.ext (Int.natCast_inj.1 huv)
  have hwl : 2 ≤ wavelength p.sampleRate hz.toNat := (lt_wavelength_iff (by omega) _ 1).2 (by omega)
  rw [play_next htarget h, State.setRun_voice, State.voice_setVoice_same]
  refine ⟨rfl, (sample_phase_zero _ _ ?_).trans (congrArg some (sext32_scaleVolume hvol₀ hvol₁))⟩
  exact (sext32_wavelength hp.2 _).symm ▸ Int.ofNat_le.2 hwl

end Sys2Proof.Machine
end

section
/-! SUPPORT. `STOP`, `RESUME` and `PAUSE` (43_voice_control.md R181 to R183). -/

namespace Sys2Proof.Machine

theorem exec_stop_of_none {voice : Int} (s : State) (hvoice : voiceIndex voice = none) : exec (.stop voice) s = .next s :=
  (Answers.stopRejected hvoice).exec_eq rfl

theorem exec_stop_of_some {voice : Int} {v : Fin 4} (s : State) (hvoice : voiceIndex voice = some v) :
    exec (.stop voice) s = .next (s.setVoice v { s.voice v with hz := 0 }) :=
  (Answers.stopped hvoice).exec_eq rfl

/-- Settles O14: the operand names the voice or none. -/
theorem stopSilencesOneVoice : Obligations.StopSilencesOneVoice := by
  refine fun s voice => ⟨fun h => exec_stop_of_none s ((voiceIndex_eq_none_iff voice).2 h), fun v h => ?_⟩
  refine ⟨_, exec_stop_of_some s ((voiceIndex_eq_some_iff voice v).2 h), ?_⟩
  rw [State.voice_setVoice_same]
  exact ⟨rfl, (Voice.active_eq_false_iff _).2 rfl, fun w hw => s.voice_setVoice_ne _ hw, rfl, rfl, rfl, rfl, rfl, rfl⟩

/-- Settles O15: `RESUME` writes `run` and has nothing left to write the second time. -/
theorem resumeSetsRunOnly : Obligations.ResumeSetsRunOnly :=
  fun _ => ⟨Answers.resumed.exec_eq rfl, Answers.resumed.exec_eq rfl⟩

/-- Settles O16: `PAUSE` writes `run`, and what it leaves refuses the audio operations. -/
theorem pauseClearsRunOnly : Obligations.PauseClearsRunOnly := by
  intro s
  have hrefused (base n : Nat) := pausedAudioOperationsAreRefused { s with run := false } base n rfl
  refine ⟨Answers.paused.exec_eq rfl, Answers.paused.exec_eq rfl, fun t h => ?_, fun base n t h => ?_⟩
  · rw [(hrefused 0 0).1] at h
    cases h
  · rw [(hrefused base n).2] at h
    cases h

end Sys2Proof.Machine
end

section
/-! SUPPORT. `playTone` (45_host_software.md R200, R201): its two answers, and the number of quanta it waits. -/

namespace Sys2Proof.Machine

/-- The wait reaches the duration (R201). -/
theorem le_fifty_mul_quanta (durationMs : Int) : durationMs ≤ 50 * (quanta durationMs : Int) := by
  unfold quanta
  omega

/-- One quantum less would fall short of the duration (R201). -/
theorem fifty_mul_quanta_lt {durationMs : Int} (h : 0 < durationMs) : 50 * (quanta durationMs : Int) < durationMs + 50 := by
  unfold quanta
  omega

section
variable {voice hz durationMs volume effect effectLevel effectLow : Int}

theorem playTone_of_rejected (htarget : playTarget voice durationMs volume effect = none) :
    playTone voice hz durationMs volume effect effectLevel effectLow = [] := by
  simp only [playTone, htarget]

theorem playTone_of_accepted {target : Fin 4 × EffectKind} (htarget : playTarget voice durationMs volume effect = some target) :
    playTone voice hz durationMs volume effect effectLevel effectLow =
      .issue (.play voice hz durationMs volume effect effectLevel effectLow) ::
        if 0 < durationMs then List.replicate (quanta durationMs) .waitQuantum ++ [.issue (.stop voice)] else [] := by
  simp only [playTone, htarget]

/-- `playTone` issues its own `PLAY` and `STOP` and waits; it does nothing else (R200). -/
theorem eq_of_mem_playTone {a : HostAction} (h : a ∈ playTone voice hz durationMs volume effect effectLevel effectLow) :
    a = .issue (.play voice hz durationMs volume effect effectLevel effectLow) ∨ a = .waitQuantum ∨ a = .issue (.stop voice) := by
  cases htarget : playTarget voice durationMs volume effect with
  | none =>
    rw [playTone_of_rejected htarget] at h
    cases h
  | some target =>
    rw [playTone_of_accepted htarget] at h
    rcases List.mem_cons.1 h with rfl | h
    · exact .inl rfl
    split at h
    · rcases List.mem_append.1 h with h | h
      · exact .inr (.inl (List.eq_of_mem_replicate h))
      · exact .inr (.inr (List.mem_singleton.1 h))
    · cases h

end

/-- Settles O51: the two answers of validation, and the quanta that reach the duration. -/
theorem playToneWaitsWholeQuanta : Obligations.PlayToneWaitsWholeQuanta := by
  intro voice hz durationMs volume effect effectLevel effectLow
  refine ⟨fun h => playTone_of_rejected ((playTarget_eq_none_iff ..).2 h), ?_⟩
  intro hvoice₀ hvoice₁ hvol₀ hvol₁ heff₀ heff₁
  have haccepted (hdur : 0 ≤ durationMs) : ∃ v kind, playTarget voice durationMs volume effect = some (v, kind) :=
    exists_playTarget (by omega)
  refine ⟨fun hzero => ?_, fun hpos => ⟨quanta durationMs, le_fifty_mul_quanta durationMs, fifty_mul_quanta_lt hpos, ?_⟩⟩
  · obtain ⟨v, kind, htarget⟩ := haccepted hzero.ge
    rw [playTone_of_accepted htarget, if_neg hzero.not_gt]
  · obtain ⟨v, kind, htarget⟩ := haccepted hpos.le
    rw [playTone_of_accepted htarget, if_pos hpos]

end Sys2Proof.Machine
end

section
/-! SUPPORT. The scan of `playNotes` (45_host_software.md R206 to R215), token by token. -/

namespace Sys2Proof.Machine

/-- What one token of `playNotes` issues: nothing, or the one `playTone` of a note or a rest (R213). -/
def IsTokenOutput (incrementMs volume : Int) (issued : List HostAction) : Prop :=
  issued = [] ∨ ∃ hz holds : Nat, issued = emitNote incrementMs volume hz holds

/-- An accidental is none or one character (R210). -/
theorem length_takeAccidental_le (cs : List Char) : (takeAccidental cs).2.length ≤ cs.length := by
  cases cs with
  | nil => exact Nat.le_refl 0
  | cons c cs =>
    simp only [takeAccidental]
    split_ifs
    · exact Nat.le_succ _
    · exact Nat.le_succ _
    · exact Nat.le_refl _

/-- The holds are characters of the string (R211). -/
theorem length_takeHolds_le (cs : List Char) : (takeHolds cs).2.length ≤ cs.length := by
  induction cs with
  | nil => exact Nat.le_refl 0
  | cons c cs ih =>
    simp only [takeHolds]
    split_ifs
    · exact Nat.le_succ_of_le ih
    · exact Nat.le_refl _

section
variable (table : OctaveTable) (incrementMs volume : Int)

theorem scanNotes_nil (fuel : Nat) (o : Fin 4) : scanNotes table incrementMs volume fuel o [] = [] := by
  cases fuel <;> rfl

/-- One token of the scan, said once: it takes the character at hand and at most characters that follow it, issues nothing or one note,
and leaves the rest to the scan, whatever bound that has (R215). -/
theorem scanNotes_cons (o : Fin 4) (c : Char) (cs : List Char) :
    ∃ issued o' rest, IsTokenOutput incrementMs volume issued ∧ rest.length ≤ cs.length ∧ ∀ fuel,
      scanNotes table incrementMs volume (fuel + 1) o (c :: cs) = issued ++ scanNotes table incrementMs volume fuel o' rest := by
  have hrest : (takeHolds (takeAccidental cs).2).2.length ≤ cs.length :=
    (length_takeHolds_le _).trans (length_takeAccidental_le cs)
  by_cases hup : c = '^'
  · exact ⟨[], octaveUp o, cs, .inl rfl, Nat.le_refl _, fun fuel => by simp only [scanNotes, if_pos hup, List.nil_append]⟩
  by_cases hdown : c = 'v'
  · exact ⟨[], octaveDown o, cs, .inl rfl, Nat.le_refl _,
      fun fuel => by simp only [scanNotes, if_neg hup, if_pos hdown, List.nil_append]⟩
  cases hdigit : octaveDigit c with
  | some o' =>
    exact ⟨[], o', cs, .inl rfl, Nat.le_refl _,
      fun fuel => by simp only [scanNotes, if_neg hup, if_neg hdown, hdigit, List.nil_append]⟩
  | none =>
    cases hletter : letterIndex c with
    | some letter =>
      exact ⟨_, o, _, .inr ⟨table o (takeAccidental cs).1 letter, (takeHolds (takeAccidental cs).2).1, rfl⟩, hrest,
        fun fuel => by simp only [scanNotes, if_neg hup, if_neg hdown, hdigit, hletter]⟩
    | none =>
      by_cases hspace : c = ' '
      · exact ⟨_, o, _, .inr ⟨0, (takeHolds (takeAccidental cs).2).1, rfl⟩, hrest,
          fun fuel => by simp only [scanNotes, if_neg hup, if_neg hdown, hdigit, hletter, if_pos hspace]⟩
      · exact ⟨[], o, cs, .inl rfl, Nat.le_refl _,
          fun fuel => by simp only [scanNotes, if_neg hup, if_neg hdown, hdigit, hletter, if_neg hspace, List.nil_append]⟩

/-- Any two bounds that reach the length of the string give the same scan. -/
theorem scanNotes_eq_of_length_le {fuel fuel' : Nat} (o : Fin 4) {notes : List Char}
    (h : notes.length ≤ fuel) (h' : notes.length ≤ fuel') :
    scanNotes table incrementMs volume fuel o notes = scanNotes table incrementMs volume fuel' o notes := by
  induction fuel generalizing fuel' o notes with
  | zero =>
    obtain rfl := List.length_eq_zero_iff.1 (Nat.le_zero.1 h)
    rw [scanNotes_nil, scanNotes_nil]
  | succ fuel ih =>
    cases notes with
    | nil => rw [scanNotes_nil, scanNotes_nil]
    | cons c cs =>
      obtain ⟨fuel', rfl⟩ := Nat.exists_eq_add_one_of_ne_zero (Nat.ne_zero_of_lt h')
      obtain ⟨issued, o', rest, -, hrest, hscan⟩ := scanNotes_cons table incrementMs volume o c cs
      rw [hscan, hscan, ih o' (hrest.trans (Nat.le_of_succ_le_succ h)) (hrest.trans (Nat.le_of_succ_le_succ h'))]

/-- Every action of a scan is one of the `playTone` of some note or rest in it (R213). -/
theorem exists_mem_emitNote_of_mem_scanNotes {fuel : Nat} {o : Fin 4} {notes : List Char} {a : HostAction}
    (h : a ∈ scanNotes table incrementMs volume fuel o notes) : ∃ hz holds : Nat, a ∈ emitNote incrementMs volume hz holds := by
  induction fuel generalizing o notes with
  | zero => cases h
  | succ fuel ih =>
    cases notes with
    | nil => cases h
    | cons c cs =>
      obtain ⟨issued, o', rest, hissued, -, hscan⟩ := scanNotes_cons table incrementMs volume o c cs
      rw [hscan] at h
      rcases List.mem_append.1 h with h | h
      · rcases hissued with rfl | ⟨hz, holds, rfl⟩
        · cases h
        · exact ⟨hz, holds, h⟩
      · exact ih h

/-- A character that is no octave mark, no letter and no space is skipped (R214). -/
theorem scanNotes_cons_of_unrecognized {c : Char} (hc : c ∉ ['^', 'v', '1', '2', '3', '4', 'A', 'B', 'C', 'D', 'E', 'F', 'G', ' '])
    (fuel : Nat) (o : Fin 4) (cs : List Char) :
    scanNotes table incrementMs volume (fuel + 1) o (c :: cs) = scanNotes table incrementMs volume fuel o cs := by
  simp only [List.mem_cons, List.not_mem_nil, or_false, not_or] at hc
  obtain ⟨hup, hdown, h1, h2, h3, h4, hA, hB, hC, hD, hE, hF, hG, hspace⟩ := hc
  have hdigit : octaveDigit c = none := by simp only [octaveDigit, h1, h2, h3, h4, if_false]
  have hletter : letterIndex c = none := by simp only [letterIndex, hA, hB, hC, hD, hE, hF, hG, if_false]
  simp only [scanNotes, if_neg hup, if_neg hdown, hdigit, hletter, if_neg hspace]

variable {incrementMs}

theorem playNotesWith_of_lt (h : incrementMs < 50) (notes : List Char) : playNotesWith table incrementMs volume notes = [] :=
  if_pos h

theorem playNotesWith_of_le (h : 50 ≤ incrementMs) (notes : List Char) :
    playNotesWith table incrementMs volume notes = scanNotes table incrementMs volume notes.length 0 notes :=
  if_neg (Int.not_lt.2 h)

end

/-- Settles O52: every action is one of a note's `playTone`, which has voice 0 and no effect. -/
theorem notesPlayOnVoiceZero : Obligations.NotesPlayOnVoiceZero := by
  intro table incrementMs volume notes
  refine ⟨fun h => playNotesWith_of_lt table volume h notes, fun a ha => ?_⟩
  rcases lt_or_ge incrementMs 50 with h | h
  · rw [playNotesWith_of_lt table volume h] at ha
    cases ha
  rw [playNotesWith_of_le table volume h] at ha
  obtain ⟨hz, holds, ha⟩ := exists_mem_emitNote_of_mem_scanNotes table incrementMs volume ha
  rcases eq_of_mem_playTone ha with hplay | hwait | hstop
  · exact .inr (.inr ⟨hz, holds, hplay⟩)
  · exact .inl hwait
  · exact .inr (.inl hstop)

/-- Settles O53: the length of the string is itself a bound that reaches it. -/
theorem noteScanIsNotCutOff : Obligations.NoteScanIsNotCutOff :=
  fun table incrementMs volume _ octave _ h => scanNotes_eq_of_length_le table incrementMs volume octave h (Nat.le_refl _)

/-- Settles O54: the character skipped has used up the one token the longer string allows for. -/
theorem unknownCharacterIsSkipped : Obligations.UnknownCharacterIsSkipped := by
  intro table incrementMs volume c notes hc
  have hskip := scanNotes_cons_of_unrecognized table incrementMs volume hc
  refine ⟨fun fuel octave => hskip fuel octave notes, ?_⟩
  rcases lt_or_ge incrementMs 50 with h | h
  · rw [playNotesWith_of_lt table volume h, playNotesWith_of_lt table volume h]
  · rw [playNotesWith_of_le table volume h, playNotesWith_of_le table volume h, List.length_cons, hskip]

end Sys2Proof.Machine
end

section
/-! SUPPORT. The fault of an undefined wavelength (60_exceptions.md R233, R235): which voice raises it, and what `FILL` answers then. -/

namespace Sys2Proof.Machine

/-- A voice lacks a wavelength, in the words of the obligations. -/
theorem Voice.lacksWavelength_iff (V : Voice) : V.lacksWavelength = true ↔ V.hz ≠ 0 ∧ V.wl.toInt ≤ 0 := by
  simp only [Voice.lacksWavelength, Voice.active, Bool.and_eq_true, bne_iff_ne, decide_eq_true_eq]
  rfl

/-- A sample handles the voices by number (R150), so the first that lacks a wavelength is the lowest-numbered (R235). -/
theorem find_lacksWavelength_eq_some (s : State) (v : Fin 4) :
    voiceOrder.find? (fun v => (s.voice v).lacksWavelength) = some v ↔
      (s.voice v).lacksWavelength = true ∧ ∀ w, w < v → (s.voice w).lacksWavelength = false := by
  have horder : voiceOrder = List.finRange 4 := rfl
  rw [horder, ← Fin.find?_eq_find?_finRange, Fin.find?_eq_some_iff]

theorem exec_fill_of_lacksWavelength {s : State} {base n : Nat} {v : Fin 4} (hrun : s.run = true) (hn : 0 < n)
    (howns : s.ownsRange base n = true) (hv : voiceOrder.find? (fun v => (s.voice v).lacksWavelength) = some v) :
    exec (.fill base n) s = .fault (.undefinedWavelength v) := by
  show whileFillable base n s _ = _
  rw [whileFillable, whileRunning_of_run hrun, if_pos howns, fillBuffer_error Config.params base n hn hv]
  rfl

/-- Settles O27: the lowest-numbered active voice without a wavelength is the one the first sample of either operation stops at. -/
theorem undefinedWavelengthFaultsAtTheFirstVoice : Obligations.UndefinedWavelengthFaultsAtTheFirstVoice := by
  intro s v base n hrun hactive hwl hbelow
  have hv : voiceOrder.find? (fun v => (s.voice v).lacksWavelength) = some v := by
    refine (find_lacksWavelength_eq_some s v).2 ⟨(s.voice v).lacksWavelength_iff.2 ⟨hactive, hwl⟩, fun w hw => ?_⟩
    refine Bool.eq_false_iff.2 fun hlacks => ?_
    obtain ⟨hw_active, hw_wl⟩ := (s.voice w).lacksWavelength_iff.1 hlacks
    exact absurd (hbelow w hw hw_active) (Int.not_lt.2 hw_wl)
  exact ⟨exec_tick_of_lacksWavelength hrun hv, fun hn howns => exec_fill_of_lacksWavelength hrun hn howns hv⟩

end Sys2Proof.Machine
end

section
/-! SUPPORT. Safety under the frequency ceiling (70_reset_and_hazards.md R255; 60_exceptions.md R233): where every active voice has a
wavelength nothing faults, and a `PLAY` under the ceiling loads a voice that has one. -/

namespace Sys2Proof.Machine

/-! ### What can fault -/

section
variable {s : State} {f : Fault}

/-- A step that faults is a sample step of the `FILL` in progress, the start of a `FILL`, or an operation, that does. -/
theorem step_fault_cases (h : step s = .fault f) :
    (∃ job, s.turn = .sample job ∧ stepFill job s = .fault f) ∨
    (∃ base n rest, openFill Config.params base n (s.setPending rest) = .fault f) ∨
    (∃ i rest, exec i (s.setPending rest) = .fault f) := by
  unfold step at h
  split at h
  case h_1 => cases h
  case h_2 job hturn => exact .inl ⟨job, hturn, h⟩
  case h_3 issue rest cut _ =>
    split at h
    case h_1 => cases h
    case h_2 i _ =>
      split at h
      case h_1 base n _ => exact .inr (.inl ⟨base, n, rest, h⟩)
      case h_2 => exact .inr (.inr ⟨i, rest, h⟩)

/-- `PLAY` raises no fault: what it does not load it drops or refuses (R170, R180). -/
theorem execPlay_ne_fault {voice hz dur vol fx level low : Int} : execPlay voice hz dur vol fx level low s ≠ .fault f := by
  unfold execPlay play
  repeat' split
  all_goals nofun

theorem execStop_ne_fault {voice : Int} : execStop voice s ≠ .fault f := by
  unfold execStop
  split <;> nofun

/-- The start of a `FILL` makes no sample, so it raises no fault (R69, R155). -/
theorem openFill_ne_fault {p : Params} {base n : Nat} : openFill p base n s ≠ .fault f := by
  intro h
  obtain ⟨-, h⟩ := whileRunning_fault h
  repeat' split at h
  all_goals cases h

section
variable (hdefined : s.wavelengthsDefined)
include hdefined

/-- No operation faults where every active voice has a wavelength (R233). -/
theorem exec_ne_fault {i : Instr} : exec i s ≠ .fault f := by
  cases i with
  | play => exact execPlay_ne_fault
  | stop => exact execStop_ne_fault
  | resume | pause => nofun
  | fill =>
    intro h
    obtain ⟨-, -, v, hv, -⟩ := exec_fill_fault h
    cases ((find_lacksWavelength_eq_none s).2 hdefined).symm.trans hv
  | tick =>
    intro h
    obtain ⟨hrun, -⟩ := whileRunning_fault h
    cases (exec_tick_of_wavelengthsDefined hrun hdefined).symm.trans h

/-- Nor does a sample step of a `FILL` in progress, whose byte the `FILL` has stored (R155, R233). -/
theorem stepFill_ne_fault {job : FillJob} {buf : Memory} (hjob : job.Ok buf) : stepFill job s ≠ .fault f := by
  obtain ⟨b, hb⟩ := Option.isSome_iff_exists.1 (hjob.stored job.index hjob.unfinished)
  obtain ⟨m, hsample, -⟩ := fillSample_ok hdefined hb
  rw [stepFill, hsample]
  nofun

end

/-- No step faults from a safe state (R255). -/
theorem State.Safe.step_ne_fault (hs : s.Safe) : step s ≠ .fault f := by
  intro h
  obtain ⟨job, hturn, h⟩ | ⟨_, _, _, h⟩ | ⟨_, rest, h⟩ := step_fault_cases h
  · have hjob := (State.jobOk_iff (turn_sample hturn).1).1 hs.inv.job_ok
    exact stepFill_ne_fault hs.defined hjob h
  · exact openFill_ne_fault h
  · exact exec_ne_fault (s := s.setPending rest) hs.defined h

end

/-! ### What keeps the wavelengths defined -/

/-- An active voice loaded under the ceiling `hz <= 2 * SAMPLE_RATE` has a wavelength (R172, R255). -/
theorem loadedVoice_wl_pos {p : Params} (hp : p.Legal) {hz : Int} (hhz : 0 ≤ hz) (hceiling : hz ≤ 2 * (p.sampleRate : Int))
    {dur vol level low : Int} {kind : EffectKind} (hactive : (loadedVoice p hz dur vol kind level low).active = true) :
    0 < sext32 (loadedVoice p hz dur vol kind level low).wl := by
  have hne : hz ≠ 0 := by
    rintro rfl
    exact absurd hactive (by simp [Voice.active, loadedVoice, wordOfInt])
  have hpos : 0 < wavelength p.sampleRate hz.toNat := (lt_wavelength_iff (by omega) _ 0).2 (by omega)
  exact (sext32_wavelength hp.2 hz.toNat).symm ▸ Int.natCast_pos.2 hpos

/-- Every operation under the ceiling leaves every active voice a wavelength. -/
theorem Answers.wavelengthsDefined {i : Instr} {s t : State} (h : Answers s i t) (hceiling : underCeiling Config.sampleRate i)
    (hs : s.wavelengthsDefined) : t.wavelengthsDefined := by
  cases h with
  | playRejected | stopRejected | resumed | paused => exact hs
  | @played _ hz dur vol _ level low v kind _ hhz =>
    intro w
    rw [State.setRun_voice, State.voice_setVoice]
    split
    · exact loadedVoice_wl_pos config_params_legal hhz hceiling
    · exact hs w
  | @stopped _ v =>
    intro w
    rw [State.voice_setVoice]
    split
    · exact fun hactive => absurd hactive (by simp [Voice.active])
    · exact hs w
  | filled => exact State.advanceTimes_wavelengthsDefined hs _
  | ticked => exact State.advanceVoices_wavelengthsDefined hs

theorem openFill_voices {p : Params} {base n : Nat} {s t : State} (h : openFill p base n s = .next t) : t.voices = s.voices := by
  obtain ⟨-, -, ⟨-, rfl⟩ | ⟨-, rfl⟩⟩ := openFill_next h <;> rfl

theorem stepFill_voices {job : FillJob} {s t : State} (h : stepFill job s = .next t) :
    t.voices = (s.advanceVoices voiceOrder).voices := by
  obtain ⟨m, -, -, -, ⟨-, rfl⟩ | ⟨-, rfl⟩⟩ := stepFill_next h <;> rfl

theorem State.wavelengthsDefined_of_voices_eq {s t : State} (h : t.voices = s.voices) (hs : s.wavelengthsDefined) :
    t.wavelengthsDefined := by
  simpa only [State.wavelengthsDefined, State.voice, h] using hs

section
variable {s t : State}

/-- A step from a safe state leaves every active voice a wavelength (R255). -/
theorem State.Safe.step_defined (hs : s.Safe) (h : step s = .next t) : t.wavelengthsDefined := by
  obtain ⟨-, rfl⟩ | ⟨job, -, hstep⟩ | ⟨issue, rest, cut, i, hturn, hdecode, hop⟩ := step_cases h
  · exact hs.defined
  · exact State.wavelengthsDefined_of_voices_eq (stepFill_voices hstep) (State.advanceVoices_wavelengthsDefined hs.defined)
  · obtain ⟨base, n, -, hopen⟩ | ⟨-, hexec⟩ := hop
    · exact State.wavelengthsDefined_of_voices_eq (openFill_voices hopen) hs.defined
    · have hmem : issue ∈ s.pending := turn_operation hturn ▸ List.mem_cons_self
      exact (exec_answers hexec).wavelengthsDefined (hs.ceiling issue hmem i hdecode) hs.defined

/-! ### The software to come -/

theorem stepFill_pending {job : FillJob} (h : stepFill job s = .next t) : t.pending = s.pending := by
  obtain ⟨-, -, -, -, -, hpending⟩ := s.advanceVoices_frame voiceOrder
  obtain ⟨m, -, -, -, ⟨-, rfl⟩ | ⟨-, rfl⟩⟩ := stepFill_next h <;> exact hpending

theorem openFill_pending {p : Params} {base n : Nat} (h : openFill p base n s = .next t) : t.pending = s.pending := by
  obtain ⟨-, -, ⟨-, rfl⟩ | ⟨-, rfl⟩⟩ := openFill_next h <;> rfl

/-- A step takes at most the first issue, and adds none (R68, R92). -/
theorem step_pending (h : step s = .next t) : t.pending = s.pending ∨ ∃ issue, s.pending = issue :: t.pending := by
  obtain ⟨-, rfl⟩ | ⟨job, -, hstep⟩ | ⟨issue, rest, cut, i, hturn, -, hop⟩ := step_cases h
  · exact .inl rfl
  · exact .inl (stepFill_pending hstep)
  · have hrest : t.pending = rest := by
      obtain ⟨base, n, -, hopen⟩ | ⟨-, hexec⟩ := hop
      · exact openFill_pending hopen
      · obtain ⟨-, -, hpending⟩ := (exec_answers hexec).frame
        exact hpending
    exact .inr ⟨issue, hrest ▸ turn_operation hturn⟩

theorem State.respectsCeiling.step_respectsCeiling (hs : s.respectsCeiling) (h : step s = .next t) : t.respectsCeiling := by
  intro issue hissue
  obtain hpending | ⟨first, hpending⟩ := step_pending h
  · exact hs issue (hpending ▸ hissue)
  · exact hs issue (hpending ▸ List.mem_cons_of_mem first hissue)

theorem State.Safe.step_safe (hs : s.Safe) (h : step s = .next t) : t.Safe where
  inv := stepKeepsInvariant s t hs.inv h
  defined := hs.step_defined h
  ceiling := hs.ceiling.step_respectsCeiling h

end

/-- Settles O45: a safe state's step meets no fault and leaves a safe state. -/
theorem softwareUnderTheCeilingNeverFaults : Obligations.SoftwareUnderTheCeilingNeverFaults :=
  fun _ hs => ⟨fun _ => hs.step_ne_fault, fun _ => hs.step_safe⟩

end Sys2Proof.Machine
end

section
/-! SUPPORT. The mix of quiet voices (70_reset_and_hazards.md R256): a sum that a signed byte holds is the output taken from `SILENCE`. -/

namespace Sys2Proof.Machine

/-- What a voice can add to a sample, in either direction: its volume while it is active, else nothing (R111, R151). -/
def Voice.loudness (V : Voice) : Int := if V.active then V.vol.toInt else 0

theorem Voice.contribution_loudness {V : Voice} (h : 0 ≤ V.vol.toInt) :
    -V.loudness ≤ V.contribution ∧ V.contribution ≤ V.loudness := by
  unfold Voice.loudness
  split
  · exact Voice.contribution_bounds h
  · rw [Voice.contribution_silent (Bool.eq_false_iff.2 ‹_›)]
    omega

/-- The sum of the samples lies within the sum of what the voices can add (R152). -/
theorem State.mixSum_loudness {s : State} (hvol : ∀ v, 0 ≤ (s.voice v).vol.toInt) (vs : List (Fin 4)) :
    -(vs.map fun v => (s.voice v).loudness).sum ≤ s.mixSum vs ∧
      s.mixSum vs ≤ (vs.map fun v => (s.voice v).loudness).sum := by
  induction vs with
  | nil => simp [State.mixSum]
  | cons v vs ih =>
    have hv := Voice.contribution_loudness (hvol v)
    rw [State.mixSum_cons, List.map_cons, List.sum_cons]
    omega

/-- A signed byte added modulo `2^8` is read back from the accumulator (R152, R256). -/
theorem toInt_mixByte_sub (b : Byte) {x : Int} (hlow : -128 ≤ x) (hhigh : x ≤ 127) : (mixByte b x - b).toInt = x := by
  rw [mixByte, BitVec.add_comm, BitVec.add_sub_cancel]
  exact BitVec.toInt_ofInt_eq_self (by decide) (by omega) (by omega)

/-- Settles O29: the sum of the volumes bounds the mix, so a signed byte holds it. -/
theorem quietMixDoesNotWrap : Obligations.QuietMixDoesNotWrap := by
  intro s t hvol (hquiet : (voiceOrder.map fun v => (s.voice v).loudness).sum ≤ 127) h
  obtain ⟨hlow, hhigh⟩ := State.mixSum_loudness hvol voiceOrder
  cases exec_answers h
  exact ⟨_, rfl, toInt_mixByte_sub Config.silence (by omega) (by omega)⟩

end Sys2Proof.Machine
end

section
/-! SUPPORT. Reset in any state (70_reset_and_hazards.md R250). -/

namespace Sys2Proof.Machine

/-- Reset meets the invariant again, whatever the voices and the `FILL` in progress were: of the state before it only `BUF` counts. -/
theorem State.assertReset_inv {s : State} (hwf : Memory.wf s.buf) : s.assertReset.Inv where
  voices_ok v := s.assertReset_voice v ▸ Voice.reset_ok Config.sampleRate
  buf_canonical := hwf
  job_ok := trivial

/-- Settles O41: the fields of the block are those of the state after reset, and `BUF` and the packets to come are left. -/
theorem resetDiscardsTheOperationInProgress : Obligations.ResetDiscardsTheOperationInProgress := fun s =>
  ⟨fun v => (s.assertReset_voice v).trans (State.reset_voice v).symm, s.assertReset_run, s.assertReset_fill, s.assertReset_buf,
    s.assertReset_pending, State.assertReset_inv⟩

end Sys2Proof.Machine
end

section
/-! SUPPORT. Packets written out from the encoding tables (95_test_vectors.md V7). -/

namespace Sys2Proof

/-- Settles O6: the opcode of each packet selects its operation, whose words are read signed for a host operation and unsigned for
`FILL`. Nothing else is read: the stray words of `STOP` and `TICK` do not count. -/
theorem writtenOutPacketsDecode : Obligations.WrittenOutPacketsDecode :=
  ⟨decodePacket_play rfl, decodePacket_stop rfl, decodePacket_resume rfl, decodePacket_pause rfl, decodePacket_fill rfl,
    decodePacket_tick rfl⟩

end Sys2Proof
end
